-- ==== Sys2Proof/Word.lean ====
section
/-! DEFINITION. The word types of the lighthouse TCP core (00_scope.md R7, R9; 30_encoding.md R70). -/

namespace Sys2Proof

/-- A byte is 8 bits (R9). -/
abbrev Byte := BitVec 8

/-- One word of the command port or of the response port: 64 bits (R70, R76). -/
abbrev Word := BitVec 64

end Sys2Proof
end

