-- ==== Sys2Proof/Syntax.lean ====
section
/-! DEFINITION. The commands: one constructor per row of spec/opcode_table.json (30_encoding.md R73). -/

namespace Sys2Proof

/-- A command. `n` is the byte count that `LEN` carries (R71), `imm` the 32 bits of `IMM` (R72). -/
inductive Instr where
  /-- CS.INIT (R101). -/
  | csInit
  /-- CS.ADD n (R102). -/
  | csAdd (n : Nat)
  /-- CS.FIN (R103). -/
  | csFin
  /-- SEG.NEW (R122). -/
  | segNew
  /-- SEG.SPORT v (R123). -/
  | segSport (imm : BitVec 32)
  /-- SEG.DPORT v (R124). -/
  | segDport (imm : BitVec 32)
  /-- SEG.SEQ v (R125). -/
  | segSeq (imm : BitVec 32)
  /-- SEG.ACK v (R126). -/
  | segAck (imm : BitVec 32)
  /-- SEG.DOFF v (R127). -/
  | segDoff (imm : BitVec 32)
  /-- SEG.FLAGS v (R128). -/
  | segFlags (imm : BitVec 32)
  /-- SEG.WIN v (R129). -/
  | segWin (imm : BitVec 32)
  /-- SEG.URG v (R130). -/
  | segUrg (imm : BitVec 32)
  /-- ADDR.SRC n (R131). -/
  | addrSrc (n : Nat)
  /-- ADDR.DST n (R132). -/
  | addrDst (n : Nat)
  /-- SEG.ENC n (R156). -/
  | segEnc (n : Nat)
deriving DecidableEq, Repr

/-- The number of DIN bytes a command consumes (R56): `LEN` for a form-L command, 0 for every other. -/
def Instr.len : Instr → Nat
  | .csInit => 0
  | .csAdd n => n
  | .csFin => 0
  | .segNew => 0
  | .segSport _ => 0
  | .segDport _ => 0
  | .segSeq _ => 0
  | .segAck _ => 0
  | .segDoff _ => 0
  | .segFlags _ => 0
  | .segWin _ => 0
  | .segUrg _ => 0
  | .addrSrc n => n
  | .addrDst n => n
  | .segEnc n => n

end Sys2Proof
end

