-- ==== Sys2Proof/Config.lean ====
section
/-! DEFINITION. What is fixed for one machine: the parameters of 00_scope.md R7 and R8. -/

namespace Sys2Proof.Config

/-- `V4_MAPPED_ACCEPT` (R8, R150; D17): whether a 16-byte IPv4-mapped address resolves to its last four bytes.
The spec leaves it OPEN, so the constant has no body and a claim holds for either value (log entry 2). -/
opaque v4MappedAccept : Bool

/-- The largest byte count that `LEN` (24 bits) can carry (R8, R71; D31). -/
def maxLen : Nat := 16777215

/-- The length of the header that SEG.ENC emits, in bytes (R7, R151). -/
def headerLen : Nat := 20

/-- The protocol number in the pseudo-header (R7, R153). -/
def protocolTcp : BitVec 8 := 0x06

/-- The standard `dataOffset`, its reset and SEG.NEW value (R21, R122; D13). -/
def standardDataOffset : BitVec 4 := 0x5

end Sys2Proof.Config
end

