-- ==== Sys2Proof/WellFormed.lean ====
section
/-! DEFINITION. Which commands have a word: the byte count of a form-L command fits `LEN` (30_encoding.md R71, R78). -/

namespace Sys2Proof

/-- A command is well formed when its byte count fits the 24 bits of `LEN`: an operand above 16,777,215 is an
assembly error, not a command (R78), and a longer payload cannot be expressed in one SEG.ENC (U14).
An immediate has 32 bits by its type. -/
abbrev Instr.WellFormed (i : Instr) : Prop := i.len ≤ Config.maxLen

end Sys2Proof
end

