-- ==== Sys2Proof/Decode.lean ====
section
/-! DEFINITION. The command encoding of 30_encoding.md: the decoder (R80), which answers for every word, the encoder, and
the opcode table (R73). -/

namespace Sys2Proof

/-- The three forms of the one format (R70): which of `LEN` and `IMM` a command uses. -/
inductive Form where
  /-- Uses neither `LEN` nor `IMM`. -/
  | z
  /-- Uses `LEN`. -/
  | l
  /-- Uses `IMM`. -/
  | i
deriving DecidableEq, Repr

/-- Why a word is illegal: the cases (a) to (d) of R74. -/
inductive Illegal where
  /-- R74 (a): the opcode is not in the opcode map. -/
  | reservedOpcode
  /-- R74 (b): a form-Z word with `w[55:0] ≠ 0`. -/
  | formZField
  /-- R74 (c): a form-L word with `w[31:0] ≠ 0`. -/
  | formLImm
  /-- R74 (d): a form-I word with `w[55:32] ≠ 0`. -/
  | formILen
deriving DecidableEq, Repr

/-- What the decoder reads from a word (R80). -/
inductive Decoded where
  /-- The word is this command. -/
  | command (i : Instr)
  /-- The word is illegal, and why. -/
  | illegal (r : Illegal)
deriving DecidableEq, Repr

/-- `OPC`, bits 63:56 (R70). -/
def opcField (w : Word) : Byte := w.extractLsb' 56 8

/-- `LEN`, bits 55:32 (R70). -/
def lenField (w : Word) : BitVec 24 := w.extractLsb' 32 24

/-- `IMM`, bits 31:0 (R70). -/
def immField (w : Word) : BitVec 32 := w.extractLsb' 0 32

/-- The form-Z commands of the opcode map (R73). -/
def formZ (opc : Byte) : Option Instr :=
  if opc = 0x01 then some .csInit
  else if opc = 0x03 then some .csFin
  else if opc = 0x10 then some .segNew
  else none

/-- The form-L commands of the opcode map (R73), with `n = zext_32(LEN)` (R71). -/
def formL (opc : Byte) (n : Nat) : Option Instr :=
  if opc = 0x02 then some (.csAdd n)
  else if opc = 0x20 then some (.addrSrc n)
  else if opc = 0x21 then some (.addrDst n)
  else if opc = 0x30 then some (.segEnc n)
  else none

/-- The form-I commands of the opcode map (R73). -/
def formI (opc : Byte) (imm : BitVec 32) : Option Instr :=
  if opc = 0x11 then some (.segSport imm)
  else if opc = 0x12 then some (.segDport imm)
  else if opc = 0x13 then some (.segSeq imm)
  else if opc = 0x14 then some (.segAck imm)
  else if opc = 0x15 then some (.segDoff imm)
  else if opc = 0x16 then some (.segFlags imm)
  else if opc = 0x17 then some (.segWin imm)
  else if opc = 0x18 then some (.segUrg imm)
  else none

/-- The decode function, its checks in the order of R80. -/
def decode (w : Word) : Decoded :=
  match formZ (opcField w) with
  | some c => if lenField w = 0 ∧ immField w = 0 then .command c else .illegal .formZField
  | none =>
    match formL (opcField w) (lenField w).toNat with
    | some c => if immField w = 0 then .command c else .illegal .formLImm
    | none =>
      match formI (opcField w) (immField w) with
      | some c => if lenField w = 0 then .command c else .illegal .formILen
      | none => .illegal .reservedOpcode

/-- A word from its three fields, the most significant first (R70). -/
def wordOf (opc : Byte) (len : BitVec 24) (imm : BitVec 32) : Word := opc ++ len ++ imm

/-- The opcode of a command (R73). -/
def Instr.opc : Instr → Byte
  | .csInit => 0x01
  | .csAdd _ => 0x02
  | .csFin => 0x03
  | .segNew => 0x10
  | .segSport _ => 0x11
  | .segDport _ => 0x12
  | .segSeq _ => 0x13
  | .segAck _ => 0x14
  | .segDoff _ => 0x15
  | .segFlags _ => 0x16
  | .segWin _ => 0x17
  | .segUrg _ => 0x18
  | .addrSrc _ => 0x20
  | .addrDst _ => 0x21
  | .segEnc _ => 0x30

/-- The `IMM` field of a command: 0 where the form does not use it (R70, R74). -/
def Instr.imm : Instr → BitVec 32
  | .csInit => 0
  | .csAdd _ => 0
  | .csFin => 0
  | .segNew => 0
  | .segSport v => v
  | .segDport v => v
  | .segSeq v => v
  | .segAck v => v
  | .segDoff v => v
  | .segFlags v => v
  | .segWin v => v
  | .segUrg v => v
  | .addrSrc _ => 0
  | .addrDst _ => 0
  | .segEnc _ => 0

/-- The word of a well-formed command (R70, R73). -/
def encode (i : Instr) : Word := wordOf i.opc (BitVec.ofNat 24 i.len) i.imm

/-- A row of the opcode map (R73): mnemonic, opcode and form. -/
structure OpcodeRow where
  mnemonic : String
  opc : Byte
  form : Form
deriving DecidableEq, Repr

/-- The opcode map, in the order of R73. -/
def opcodeTable : List OpcodeRow :=
  [⟨"CS.INIT", 0x01, .z⟩, ⟨"CS.ADD", 0x02, .l⟩, ⟨"CS.FIN", 0x03, .z⟩] ++
  [⟨"SEG.NEW", 0x10, .z⟩, ⟨"SEG.SPORT", 0x11, .i⟩, ⟨"SEG.DPORT", 0x12, .i⟩, ⟨"SEG.SEQ", 0x13, .i⟩] ++
  [⟨"SEG.ACK", 0x14, .i⟩, ⟨"SEG.DOFF", 0x15, .i⟩, ⟨"SEG.FLAGS", 0x16, .i⟩, ⟨"SEG.WIN", 0x17, .i⟩] ++
  [⟨"SEG.URG", 0x18, .i⟩, ⟨"ADDR.SRC", 0x20, .l⟩, ⟨"ADDR.DST", 0x21, .l⟩, ⟨"SEG.ENC", 0x30, .l⟩]

/-- The mask of a form (R73). -/
def Form.mask : Form → Word
  | .z => 0xFFFFFFFFFFFFFFFF
  | .l => 0xFF000000FFFFFFFF
  | .i => 0xFFFFFFFF00000000

/-- The match value of a row: `OPC << 56` (R73). -/
def OpcodeRow.matchWord (r : OpcodeRow) : Word := wordOf r.opc 0 0

/-- A word fits a row when `(w & mask) = match` (R73). -/
abbrev OpcodeRow.Fits (r : OpcodeRow) (w : Word) : Prop := w &&& r.form.mask = r.matchWord

/-- An instruction word of the opcode table as a command word: bit 0 least significant, bits above `nbits` zero. -/
def tableWord (nbits w : Nat) : Word := BitVec.ofNat 64 (w % 2 ^ nbits)

/-- The command the decoder reads from a word of the opcode table, none where it refuses.
A command is one parallel 64-bit word and has no byte order (R70), so there is nothing to lay out in bytes. -/
def decodeTableWord (nbits w : Nat) : Option Instr :=
  match decode (tableWord nbits w) with
  | .command i => some i
  | .illegal _ => none

end Sys2Proof
end

