-- ==== Sys2Proof/Machine/State.lean ====
section
/-! DEFINITION. The state of the block: the registers S0 to S17 of 10_state.md R21 and the four queues of R36. -/

namespace Sys2Proof.Machine

/-- The lifecycle of the checksum unit (R25): accepting chunks, or finalized. -/
inductive Phase where
  | opened
  | finalized
deriving DecidableEq, Repr

/-- A Checksummer (R22 to R24): the CS unit's S0 to S2, and the private accumulator of SEG.ENC (R31). -/
structure Checksummer where
  runningSum : BitVec 32
  pendingOddByte : Byte
  totalBytesSeen : BitVec 32
deriving DecidableEq, Repr

/-- The TCP header fields S4 to S11 (R27); `flags` is laid out as R28 says. -/
structure TcpSegment where
  sourcePort : BitVec 16
  destPort : BitVec 16
  sequenceNumber : BitVec 32
  acknowledgmentNumber : BitVec 32
  dataOffset : BitVec 4
  flags : BitVec 9
  windowSize : BitVec 16
  urgentPointer : BitVec 16
deriving DecidableEq, Repr

/-- An address register (R30): the length supplied and the first sixteen bytes. -/
structure AddrReg where
  len : BitVec 24
  bytes : Vector Byte 16
deriving DecidableEq, Repr

/-- The registers S0 to S17 (R21). -/
structure Registers where
  /-- S0 to S2. -/
  cs : Checksummer
  /-- S3. -/
  phase : Phase
  /-- S4 to S11. -/
  seg : TcpSegment
  /-- S12 and S13. -/
  srcAddr : AddrReg
  /-- S14 and S15. -/
  dstAddr : AddrReg
  /-- S16, `STATUS.FAULT`. -/
  fault : Bool
  /-- S17, `STATUS.FAULT_CODE`. -/
  faultCode : Byte
deriving DecidableEq, Repr

/-- The state: the registers and the interface queues, each list with its first-out element at the head (R36). -/
structure State extends Registers where
  /-- Command words, host to block. -/
  cmd : List Word
  /-- Data bytes, host to block. -/
  din : List Byte
  /-- Data bytes, block to host. -/
  dout : List Byte
  /-- Response words, block to host. -/
  rsp : List Word
deriving DecidableEq, Repr

/-- Why the model stops with a fault: never.
The spec's faults (60_exceptions.md R182, R185) are states of the block, entered by a next state, and every command has an
effect, so no constructor is needed; safe. -/
inductive Fault
deriving DecidableEq, Repr

/-- Why the model gives no meaning. -/
inductive Refusal where
  /-- Raised by an arm of `exec` that has no meaning yet; safe. No arm raises it. -/
  | notModelled (mnemonic : String)
deriving DecidableEq, Repr

/-- The zero-value Checksummer (R21, R101): the reset state of the CS unit and the fresh private accumulator. -/
def Checksummer.fresh : Checksummer :=
  { runningSum := 0, pendingOddByte := 0, totalBytesSeen := 0 }

/-- The segment value of reset and SEG.NEW (R21, R122): all zero but `dataOffset`. -/
def TcpSegment.fresh : TcpSegment :=
  { sourcePort := 0, destPort := 0, sequenceNumber := 0, acknowledgmentNumber := 0,
    dataOffset := Config.standardDataOffset, flags := 0, windowSize := 0, urgentPointer := 0 }

/-- The address register at reset: length 0, no address (R21). -/
def AddrReg.empty : AddrReg :=
  { len := 0, bytes := #v[0, 0, 0, 0, 0, 0, 0, 0, 0, 0, 0, 0, 0, 0, 0, 0] }

/-- The block right after reset: every register at its value in R21, the queues empty (70_reset_and_hazards.md R210). -/
def State.reset : State :=
  { cs := .fresh, phase := .opened, seg := .fresh, srcAddr := .empty, dstAddr := .empty,
    fault := false, faultCode := 0x00, cmd := [], din := [], dout := [], rsp := [] }

end Sys2Proof.Machine
end

