-- ==== Sys2Proof/Machine/Flags.lean ====
section
/-! DEFINITION. The block has no condition flags (10_state.md R35). Here stand the response status codes
(30_encoding.md R77), the STATUS register (10_state.md R32) and the TCP control flags with their encoder
(10_state.md R28, 42_segment_encode.md R152). -/

namespace Sys2Proof.Machine

/-- The two faults (60_exceptions.md R182, R185). -/
inductive FaultCause where
  /-- A word outside the command set (R185). -/
  | illegalCommand
  /-- CS.ADD or CS.FIN while FINALIZED (R182). -/
  | useAfterFinalize
deriving DecidableEq, Repr

/-- The outcomes a response reports; the set is closed (R77). -/
inductive RspStatus where
  | ok
  | invalidAddress
  | fault (c : FaultCause)
  | blocked
deriving DecidableEq, Repr

/-- The fault code, which is the response STATUS too (R77, R183). -/
def FaultCause.code : FaultCause → Byte
  | .illegalCommand => 0x80
  | .useAfterFinalize => 0x81

/-- The STATUS code of a response (R77). -/
def RspStatus.code : RspStatus → Byte
  | .ok => 0x00
  | .invalidAddress => 0x01
  | .fault c => c.code
  | .blocked => 0xFF

/-- `CS_PHASE`: 0 is OPEN, 1 is FINALIZED (R21, R32). -/
def Phase.bit : Phase → BitVec 1
  | .opened => 0
  | .finalized => 1

/-- The STATUS register (R32): `FAULT_CODE` in 15:8, bits 7:2 zero, `CS_PHASE` in bit 1, `FAULT` in bit 0. -/
def Registers.status (r : Registers) : BitVec 16 :=
  r.faultCode ++ 0#6 ++ r.phase.bit ++ BitVec.ofBool r.fault

/-- The nine TCP control flags (R28). -/
inductive TcpFlag where
  | fin | syn | rst | psh | ack | urg | ece | cwr | ns
deriving DecidableEq, Repr

/-- The bit of the `flags` register that holds a flag (R28). -/
def TcpFlag.bit : TcpFlag → Nat
  | .fin => 0
  | .syn => 1
  | .rst => 2
  | .psh => 3
  | .ack => 4
  | .urg => 5
  | .ece => 6
  | .cwr => 7
  | .ns => 8

/-- The value of one flag in the `flags` register (R28, R79). -/
def TcpFlag.value (f : TcpFlag) : BitVec 9 := 1#9 <<< f.bit

/-- Whether a flag is set in a `flags` value (R28). -/
def TcpSegment.hasFlag (g : TcpSegment) (f : TcpFlag) : Bool := g.flags.getLsbD f.bit

/-- Header byte 12 (R151, R152): `dataOffset` in bits 7:4, bits 3:1 zero, NS in bit 0. -/
def TcpSegment.byte12 (g : TcpSegment) : Byte := g.dataOffset ++ 0#3 ++ g.flags.extractLsb' 8 1

/-- Header byte 13 (R151, R152): the eight flags FIN to CWR. -/
def TcpSegment.byte13 (g : TcpSegment) : Byte := g.flags.extractLsb' 0 8

end Sys2Proof.Machine
end

