-- ==== Sys2Proof/Machine/Operands.lean ====
section
/-! DEFINITION. The operand forms and byte-order helpers: the truncation of an immediate (30_encoding.md R72),
the big-endian byte sequences (00_scope.md R10, 20_memory.md R51) and the form of an address (41_segment_fields.md R131,
42_segment_encode.md R150). -/

namespace Sys2Proof.Machine

/-- `trunc_W(IMM)`: a field write keeps the low `W` bits of the immediate (R72, R121). -/
def truncImm (width : Nat) (imm : BitVec 32) : BitVec width := imm.setWidth width

/-- `zext_32` of a byte (R10). -/
def zext32 (b : Byte) : BitVec 32 := b.setWidth 32

/-- `be16(v)`: the most significant byte first (R10). -/
def be16 (v : BitVec 16) : List Byte := [v.extractLsb' 8 8, v.extractLsb' 0 8]

/-- `be32(v)`: the most significant byte first (R10). -/
def be32 (v : BitVec 32) : List Byte :=
  [v.extractLsb' 24 8, v.extractLsb' 16 8, v.extractLsb' 8 8, v.extractLsb' 0 8]

/-- Four bytes in DIN order: an IPv4 address `a.b.c.d` (R133). -/
structure Ipv4 where
  a : Byte
  b : Byte
  c : Byte
  d : Byte
deriving DecidableEq, Repr

/-- The bytes of an address, first octet first (R133). -/
def Ipv4.bytes (x : Ipv4) : List Byte := [x.a, x.b, x.c, x.d]

/-- The address register that `n` supplied bytes give (R30, R131): the length, and the first sixteen bytes,
0x00 past the last one supplied. -/
def AddrReg.ofBytes (n : Nat) (a : List Byte) : AddrReg :=
  { len := BitVec.ofNat 24 n
    bytes := Vector.ofFn fun i => if i.val < n then a.getD i.val 0x00 else 0x00 }

/-- Bytes 0 to 11 of an IPv4-mapped address: ten 0x00 bytes, then `ff ff` (R150). -/
def mappedPrefix : List Byte := [0, 0, 0, 0, 0, 0, 0, 0, 0, 0, 0xff, 0xff]

/-- Address resolution (R150): the four bytes an address register stands for, or none where it is INVALID.
`accept` is `V4_MAPPED_ACCEPT`. -/
def resolve4 (accept : Bool) (r : AddrReg) : Option Ipv4 :=
  if r.len = 4 then some ⟨r.bytes[0], r.bytes[1], r.bytes[2], r.bytes[3]⟩
  else if r.len = 16 ∧ r.bytes.toList.take 12 = mappedPrefix ∧ accept = true then
    some ⟨r.bytes[12], r.bytes[13], r.bytes[14], r.bytes[15]⟩
  else none

end Sys2Proof.Machine
end

