-- ==== Sys2Proof/Machine/Ops.lean ====
section
/-! DEFINITION. The shared operations: answering on RSP, taking a fault, being blocked, taking DIN bytes, emitting DOUT
bytes. The block has no memory (20_memory.md R50) and no return from a fault (60_exceptions.md R188). -/

namespace Sys2Proof.Machine

/-- What a command answers. -/
abbrev Result := Host.Outcome State Fault Refusal

/-- A response word (30_encoding.md R76): `(status << 56) | value`, bits 55:32 zero. -/
def rspWord (st : RspStatus) (value : BitVec 32) : Word := st.code ++ 0#24 ++ value

/-- `RSP.emit(status, value)` (R76), with which a command ends: its word leaves CMD and its one response enters RSP, in the
same step (20_memory.md R55). -/
def respond (st : RspStatus) (value : BitVec 32) (s : State) : State :=
  { s with cmd := s.cmd.tail, rsp := s.rsp ++ [rspWord st value] }

/-- Taking a fault, `raise Fault(code)` (60_exceptions.md R183): STATUS records the cause, the response carries the opcode of
the faulting word, and nothing else changes. -/
def raiseFault (c : FaultCause) (opc : Byte) (s : State) : State :=
  respond (.fault c) (zext32 opc) { s with fault := true, faultCode := c.code }

/-- A command taken in the fault state (R184): answered BLOCKED, with no other effect. -/
def blocked (s : State) : State := respond .blocked 0 s

/-- The first common check of every command (R186): in the fault state it is BLOCKED.
`execute` makes this check before it decodes; a meaning makes it too, so that what it says holds in every state
(log entry 6). -/
def unlessBlocked (s : State) (k : Result) : Result :=
  if s.fault then .next (blocked s) else k

/-- The check of CS.ADD and CS.FIN (R182, R186): in FINALIZED the command faults, before any DIN byte is taken. -/
def unlessFinalized (opc : Byte) (s : State) (k : Result) : Result :=
  if s.phase = .finalized then .next (raiseFault .useAfterFinalize opc s) else k

/-- `DIN.take(n)` (20_memory.md R52): the first `n` bytes and the state without them; none while DIN holds fewer. -/
def takeDin (n : Nat) (s : State) : Option (List Byte × State) :=
  if n ≤ s.din.length then some (s.din.take n, { s with din := s.din.drop n }) else none

/-- A command that waits (R52; 70_reset_and_hazards.md R213): the state is unchanged and the word stays at the head of CMD
(log entry 4). -/
def hold (s : State) : Result := .next s

/-- Run a command on the next `n` bytes of DIN, or hold until they are queued (R52, R213). -/
def withDin (n : Nat) (s : State) (k : List Byte → State → State) : Result :=
  match takeDin n s with
  | some (bytes, t) => .next (k bytes t)
  | none => hold s

/-- `DOUT.emit(bytes)` (R53): appended in order, as one unit. -/
def emitDout (bytes : List Byte) (s : State) : State := { s with dout := s.dout ++ bytes }

end Sys2Proof.Machine
end

