-- ==== Sys2Proof/Machine/Checksum.lean ====
section
/-! DEFINITION. The Checksum Engine: its data paths and the commands CS.INIT, CS.ADD, CS.FIN (40_checksum.md). -/

namespace Sys2Proof.Machine

/-- Whether a byte is pending: the parity bit of `totalBytesSeen` (R23, R24). -/
def Checksummer.odd (a : Checksummer) : Bool := a.totalBytesSeen.getLsbD 0

/-- One byte of the loop of R102: the high byte of the pending pair, or the low byte of a new one. -/
def Checksummer.addByte (a : Checksummer) (b : Byte) : Checksummer :=
  if a.odd then
    { runningSum := a.runningSum + (zext32 a.pendingOddByte + zext32 b * 256)
      pendingOddByte := 0x00
      totalBytesSeen := a.totalBytesSeen + 1 }
  else
    { a with pendingOddByte := b, totalBytesSeen := a.totalBytesSeen + 1 }

/-- The bytes of a chunk in stream order (R102). -/
def Checksummer.add (a : Checksummer) (chunk : List Byte) : Checksummer := chunk.foldl Checksummer.addByte a

/-- The body of the loop of R104. -/
def foldOnce (s : BitVec 32) : BitVec 32 := (s >>> 16) + (s &&& 0xFFFF)

/-- The loop of R104, with a bound on its passes. -/
def foldLoop : Nat → BitVec 32 → BitVec 32
  | 0, s => s
  | k + 1, s => if s > 0xFFFF then foldLoop k (foldOnce s) else s

/-- `fold(s)` (R104): the loop runs at most twice on a 32-bit value. -/
def fold (s : BitVec 32) : BitVec 32 := foldLoop 2 s

/-- The sum with the odd trailing byte as the low byte of a last pair (R103, R106). -/
def Checksummer.total (a : Checksummer) : BitVec 32 :=
  if a.odd then a.runningSum + zext32 a.pendingOddByte else a.runningSum

/-- The value of finalize (R103): the complement of the folded sum, 16 bits. -/
def Checksummer.finalize (a : Checksummer) : BitVec 16 := (~~~ fold a.total).setWidth 16

/-- CS.INIT (R101). -/
def execCsInit (s : State) : Result :=
  unlessBlocked s (.next (respond .ok 0 { s with cs := .fresh, phase := .opened }))

/-- CS.ADD n (R102). -/
def execCsAdd (n : Nat) (s : State) : Result :=
  unlessBlocked s (unlessFinalized (Instr.csAdd n).opc s (withDin n s fun chunk t =>
    respond .ok 0 { t with cs := t.cs.add chunk }))

/-- CS.FIN (R103): S0 to S2 are left unchanged (D33). -/
def execCsFin (s : State) : Result :=
  unlessBlocked s (unlessFinalized Instr.csFin.opc s
    (.next (respond .ok (s.cs.finalize.setWidth 32) { s with phase := .finalized })))

end Sys2Proof.Machine
end

