-- ==== Sys2Proof/Machine/SegmentEncode.lean ====
section
/-! DEFINITION. SEG.ENC and its sub-functions (42_segment_encode.md). Address resolution (R150) stands in Operands.lean and the
flag encoder (R152) in Flags.lean. -/

namespace Sys2Proof.Machine

/-- The header serializer `hdr(F)` (R151): twenty bytes, the checksum field zero, no options. -/
def header (g : TcpSegment) : List Byte :=
  be16 g.sourcePort ++ be16 g.destPort ++ be32 g.sequenceNumber ++ be32 g.acknowledgmentNumber ++
    [g.byte12, g.byte13] ++ be16 g.windowSize ++ [0x00, 0x00] ++ be16 g.urgentPointer

/-- The pseudo-header assembler `pseudo(S4, D4, n)` (R153): the length field is `(20 + n) mod 2^16`. -/
def pseudoHeader (src dst : Ipv4) (n : Nat) : List Byte :=
  src.bytes ++ dst.bytes ++ [0x00] ++ [Config.protocolTcp] ++ be16 (BitVec.ofNat 16 (Config.headerLen + n))

/-- The checksum sequence `csum_seg(ph, h, p)` (R154) on a fresh private accumulator (R31). -/
def checksumOfSegment (ph h p : List Byte) : BitVec 16 :=
  (((Checksummer.fresh.add ph).add h).add p).finalize

/-- The checksum injector (R155): the low byte at offset 16, the high byte at offset 17. -/
def injectChecksum (c : BitVec 16) (h : List Byte) : List Byte :=
  (h.set 16 (c.extractLsb' 0 8)).set 17 (c.extractLsb' 8 8)

/-- The bytes of one encoded segment (R156): the header with its checksum, then the payload of `n` bytes. -/
def encodeSegment (g : TcpSegment) (src dst : Ipv4) (n : Nat) (p : List Byte) : List Byte :=
  injectChecksum (checksumOfSegment (pseudoHeader src dst n) (header g) p) (header g) ++ p

/-- SEG.ENC n once its payload is taken (R156): with both addresses resolved, the segment on DOUT and `OK, 20 + n`; else
INVALID_ADDRESS, the payload consumed and nothing emitted (60_exceptions.md R181). -/
def encodeOrReject (n : Nat) (p : List Byte) (s : State) : State :=
  match resolve4 Config.v4MappedAccept s.srcAddr, resolve4 Config.v4MappedAccept s.dstAddr with
  | some src, some dst =>
    respond .ok (BitVec.ofNat 32 (Config.headerLen + n)) (emitDout (encodeSegment s.seg src dst n p) s)
  | _, _ => respond .invalidAddress 0 s

/-- SEG.ENC n (R156): no register is written. -/
def execSegEnc (n : Nat) (s : State) : Result :=
  unlessBlocked s (withDin n s fun p t => encodeOrReject n p t)

end Sys2Proof.Machine
end

