-- ==== Sys2Proof/Machine/SegmentFields.lean ====
section
/-! DEFINITION. The segment field and address commands: SEG.NEW, SEG.SPORT to SEG.URG, ADDR.SRC, ADDR.DST
(41_segment_fields.md). -/

namespace Sys2Proof.Machine

/-- A field write (R120, R121): one change of the segment value, answered OK. -/
def writeSegment (s : State) (f : TcpSegment → TcpSegment) : Result :=
  unlessBlocked s (.next (respond .ok 0 { s with seg := f s.seg }))

/-- SEG.NEW (R122): the address registers are not changed. -/
def execSegNew (s : State) : Result := writeSegment s fun _ => .fresh

/-- SEG.SPORT v (R123). -/
def execSegSport (v : BitVec 32) (s : State) : Result :=
  writeSegment s fun g => { g with sourcePort := truncImm 16 v }

/-- SEG.DPORT v (R124). -/
def execSegDport (v : BitVec 32) (s : State) : Result :=
  writeSegment s fun g => { g with destPort := truncImm 16 v }

/-- SEG.SEQ v (R125). -/
def execSegSeq (v : BitVec 32) (s : State) : Result :=
  writeSegment s fun g => { g with sequenceNumber := truncImm 32 v }

/-- SEG.ACK v (R126). -/
def execSegAck (v : BitVec 32) (s : State) : Result :=
  writeSegment s fun g => { g with acknowledgmentNumber := truncImm 32 v }

/-- SEG.DOFF v (R127). -/
def execSegDoff (v : BitVec 32) (s : State) : Result :=
  writeSegment s fun g => { g with dataOffset := truncImm 4 v }

/-- SEG.FLAGS v (R128). -/
def execSegFlags (v : BitVec 32) (s : State) : Result :=
  writeSegment s fun g => { g with flags := truncImm 9 v }

/-- SEG.WIN v (R129). -/
def execSegWin (v : BitVec 32) (s : State) : Result :=
  writeSegment s fun g => { g with windowSize := truncImm 16 v }

/-- SEG.URG v (R130). -/
def execSegUrg (v : BitVec 32) (s : State) : Result :=
  writeSegment s fun g => { g with urgentPointer := truncImm 16 v }

/-- ADDR.SRC n (R131). -/
def execAddrSrc (n : Nat) (s : State) : Result :=
  unlessBlocked s (withDin n s fun a t => respond .ok 0 { t with srcAddr := AddrReg.ofBytes n a })

/-- ADDR.DST n (R132). -/
def execAddrDst (n : Nat) (s : State) : Result :=
  unlessBlocked s (withDin n s fun a t => respond .ok 0 { t with dstAddr := AddrReg.ofBytes n a })

end Sys2Proof.Machine
end

