-- ==== Sys2Proof/Machine/Dispatch.lean ====
section
/-! DEFINITION. One arm per command: the meaning of each row of the opcode map (30_encoding.md R73). -/

namespace Sys2Proof.Machine

def exec (i : Instr) (s : State) : Host.Outcome State Fault Refusal :=
  match i with
  -- 40_checksum.md
  | .csInit => Sys2Proof.Machine.execCsInit s
  | .csAdd n => Sys2Proof.Machine.execCsAdd n s
  | .csFin => Sys2Proof.Machine.execCsFin s
  -- 41_segment_fields.md
  | .segNew => Sys2Proof.Machine.execSegNew s
  | .segSport imm => Sys2Proof.Machine.execSegSport imm s
  | .segDport imm => Sys2Proof.Machine.execSegDport imm s
  | .segSeq imm => Sys2Proof.Machine.execSegSeq imm s
  | .segAck imm => Sys2Proof.Machine.execSegAck imm s
  | .segDoff imm => Sys2Proof.Machine.execSegDoff imm s
  | .segFlags imm => Sys2Proof.Machine.execSegFlags imm s
  | .segWin imm => Sys2Proof.Machine.execSegWin imm s
  | .segUrg imm => Sys2Proof.Machine.execSegUrg imm s
  | .addrSrc n => Sys2Proof.Machine.execAddrSrc n s
  | .addrDst n => Sys2Proof.Machine.execAddrDst n s
  -- 42_segment_encode.md
  | .segEnc n => Sys2Proof.Machine.execSegEnc n s

end Sys2Proof.Machine
end

