-- ==== Sys2Proof/Machine/Execute.lean ====
section
/-! DEFINITION. The execution of one command word with its common checks, in the order of 60_exceptions.md R186. -/

namespace Sys2Proof.Machine

/-- `execute(w)` (R186): in the fault state BLOCKED before decoding (R184); an illegal word faults (R185); a command runs,
its own checks first (R182). -/
def execute (w : Word) (s : State) : Result :=
  if s.fault then .next (blocked s)
  else
    match decode w with
    | .illegal _ => .next (raiseFault .illegalCommand (opcField w) s)
    | .command i => exec i s

/-- The block with no command waiting (R195; 70_reset_and_hazards.md R211): idle, all state intact (log entry 3). -/
def idle (s : State) : Result := .next s

end Sys2Proof.Machine
end

