-- ==== Sys2Proof/Machine/Step.lean ====
section
/-! DEFINITION. One step of the block: the word at the head of CMD is executed (20_memory.md R55, R63). -/

namespace Sys2Proof.Machine

/-- One step: the command at the head of CMD as one atomic step, or idle. There is no program counter (10_state.md R34). -/
def step (s : State) : Host.Outcome State Fault Refusal :=
  match s.cmd with
  | [] => idle s
  | w :: _ => execute w s

/-- The state with a table word as the next command: put at the head of CMD, before the words that wait there
(log entry 1). -/
def State.withFetchWord (s : State) (nbits w : Nat) : State :=
  { s with cmd := tableWord nbits w :: s.cmd }

end Sys2Proof.Machine
end

