-- ==== Sys2Proof/Machine/Session.lean ====
section
/-! DEFINITION. The host side: what the host may do (20_memory.md R65), reset (70_reset_and_hazards.md R210), a run and its
observation (R220), and several instances (60_exceptions.md R193). -/

namespace Sys2Proof.Machine

/-- What the host does to the block (R65, R210). -/
inductive HostEvent where
  /-- One command word onto CMD. -/
  | issue (w : Word)
  /-- Bytes onto DIN. -/
  | supply (bytes : List Byte)
  /-- Up to `k` response words off RSP. -/
  | drainRsp (k : Nat)
  /-- Up to `k` bytes off DOUT. -/
  | drainDout (k : Nat)
  /-- The reset input. -/
  | reset
deriving DecidableEq, Repr

/-- What can happen next: the host acts, or the block takes a step. -/
inductive Event where
  | host (e : HostEvent)
  | block
deriving DecidableEq, Repr

/-- A run as the host sees it: the block, how many command words were issued since reset, and what was drained
(log entry 8). -/
structure Session where
  block : State
  issued : Nat
  gotRsp : List Word
  gotDout : List Byte
deriving DecidableEq, Repr

/-- A run begins at reset (R210, R211): nothing issued, nothing drained. -/
def Session.start : Session := { block := .reset, issued := 0, gotRsp := [], gotDout := [] }

/-- The effect of a host event. Reset discards the queues and starts a new run (R210; log entry 7). -/
def Session.host (e : HostEvent) (x : Session) : Session :=
  match e with
  | .issue w => { x with block := { x.block with cmd := x.block.cmd ++ [w] }, issued := x.issued + 1 }
  | .supply bytes => { x with block := { x.block with din := x.block.din ++ bytes } }
  | .drainRsp k =>
    { x with block := { x.block with rsp := x.block.rsp.drop k }, gotRsp := x.gotRsp ++ x.block.rsp.take k }
  | .drainDout k =>
    { x with block := { x.block with dout := x.block.dout.drop k }, gotDout := x.gotDout ++ x.block.dout.take k }
  | .reset => .start

/-- One event of a run. -/
def Session.next (e : Event) (x : Session) : Host.Outcome Session Fault Refusal :=
  match e with
  | .host h => .next (x.host h)
  | .block =>
    match step x.block with
    | .next t => .next { x with block := t }
    | .fault r => .fault r
    | .refused r => .refused r

/-- The events of a run, one after the other. -/
def Session.run : List Event → Session → Host.Outcome Session Fault Refusal
  | [], x => .next x
  | e :: es, x =>
    match x.next e with
    | .next y => Session.run es y
    | .fault r => .fault r
    | .refused r => .refused r

/-- Every response word of the run, in order: those drained, then those on RSP. -/
def Session.responses (x : Session) : List Word := x.gotRsp ++ x.block.rsp

/-- Every DOUT byte of the run, in order. -/
def Session.output (x : Session) : List Byte := x.gotDout ++ x.block.dout

/-- What a run shows at its end (R220 (a) to (d)). -/
structure Observation where
  responses : List Word
  output : List Byte
  registers : Registers
  dinLeft : List Byte
deriving DecidableEq, Repr

/-- The observation of a run (R220). -/
def Session.observe (x : Session) : Observation :=
  { responses := x.responses, output := x.output, registers := x.block.toRegisters, dinLeft := x.block.din }

/-- Several instances of the block (R193): each its own registers and queues, and its own host side. -/
abbrev Bank := List Session

/-- `n` instances, each started from its own reset (R193). -/
def Bank.start (n : Nat) : Bank := List.replicate n .start

/-- An event of instance `k`: its host acts on it, its reset input is asserted, or it takes a step (R193).
Where there is no such instance, or the event stops, nothing changes (log entry 11). -/
def Bank.eventAt (k : Nat) (e : Event) (b : Bank) : Bank :=
  b.modify k fun x =>
    match x.next e with
    | .next y => y
    | .fault _ => x
    | .refused _ => x

end Sys2Proof.Machine
end

