-- ==== Sys2Proof/Machine/Assembler.lean ====
section
/-! DEFINITION. The assembly syntax (30_encoding.md R78) and the pseudo-instructions (R79). What the spec leaves open of the
text's form is fixed by log entry 9. -/

namespace Sys2Proof.Machine

/-- One thing the host does for a program: a command word, or bytes queued on DIN at that point (R78, `.din`). -/
inductive Item where
  | command (i : Instr)
  | din (bytes : List Byte)
deriving DecidableEq, Repr

/-- The host's action for an item (R65). -/
def Item.event : Item → HostEvent
  | .command i => .issue (encode i)
  | .din bytes => .supply bytes

/-- The host queues a whole program (R65). -/
def loadProgram (p : List Item) (x : Session) : Session := p.foldl (fun y it => y.host it.event) x

/-- The pseudo-instructions (R79). -/
inductive Pseudo where
  | csAddB (bytes : List Byte)
  | checksum (bytes : List Byte)
  | addrSrc4 (addr : Ipv4)
  | addrDst4 (addr : Ipv4)
  | segFlagset (flags : List TcpFlag)
  | segEncB (bytes : List Byte)
deriving DecidableEq, Repr

/-- The OR of the flag values (R79); 0 for the empty list. -/
def flagsetValue (flags : List TcpFlag) : BitVec 9 := flags.foldl (fun v f => v ||| f.value) 0

/-- The expansions (R79). -/
def Pseudo.expand : Pseudo → List Item
  | .csAddB bytes => [.command (.csAdd bytes.length), .din bytes]
  | .checksum bytes => [.command .csInit, .command (.csAdd bytes.length), .din bytes, .command .csFin]
  | .addrSrc4 addr => [.command (.addrSrc 4), .din addr.bytes]
  | .addrDst4 addr => [.command (.addrDst 4), .din addr.bytes]
  | .segFlagset flags => [.command (.segFlags ((flagsetValue flags).setWidth 32))]
  | .segEncB bytes => [.command (.segEnc bytes.length), .din bytes]

/-- Why a line is an assembly error. -/
inductive AsmError where
  /-- The mnemonic is in neither R73 nor R79. -/
  | unknownMnemonic
  /-- A form-Z command with an operand, or another command without exactly one (R78). -/
  | operandCount
  /-- An operand that is neither decimal nor `0x` hex (R78). -/
  | badNumber
  /-- A byte that is not two hex digits (00_scope.md R9). -/
  | badByte
  /-- A form-L operand above 16,777,215 (R78). -/
  | lenTooLarge
  /-- A form-I operand above 0xFFFFFFFF (R78). -/
  | immTooLarge
  /-- An address that is not four decimal octets (R79). -/
  | badAddress
  /-- A flag name that R79 does not list. -/
  | badFlag
deriving DecidableEq, Repr

/-- The value of a hex digit. -/
def hexDigit (c : Char) : Option Nat :=
  if '0'.toNat ≤ c.toNat ∧ c.toNat ≤ '9'.toNat then some (c.toNat - '0'.toNat)
  else if 'a'.toNat ≤ c.toNat ∧ c.toNat ≤ 'f'.toNat then some (c.toNat - 'a'.toNat + 10)
  else if 'A'.toNat ≤ c.toNat ∧ c.toNat ≤ 'F'.toNat then some (c.toNat - 'A'.toNat + 10)
  else none

/-- The digits that follow a number read so far. -/
def readDigits (base : Nat) (sofar : Nat) : List Char → Option Nat
  | [] => some sofar
  | c :: cs =>
    match hexDigit c with
    | some d => if d < base then readDigits base (sofar * base + d) cs else none
    | none => none

/-- A number of one or more digits. -/
def readNatural (base : Nat) : List Char → Option Nat
  | [] => none
  | cs => readDigits base 0 cs

/-- An operand: decimal, or hex after `0x` (R78). -/
def readOperand : List Char → Option Nat
  | '0' :: 'x' :: cs => readNatural 16 cs
  | cs => readNatural 10 cs

/-- A byte of a byte sequence: two hex digits (R9). -/
def readByte : List Char → Option Byte
  | [a, b] => (readNatural 16 [a, b]).map (BitVec.ofNat 8)
  | _ => none

/-- The pieces of a text between separators, the empty ones too. -/
def pieces (sep : Char → Bool) : List Char → List (List Char)
  | [] => [[]]
  | c :: cs =>
    if sep c then [] :: pieces sep cs
    else
      match pieces sep cs with
      | [] => [[c]]
      | t :: ts => (c :: t) :: ts

/-- The tokens of a line: what stands before `;`, cut at blanks (R78). -/
def tokens (line : List Char) : List (List Char) :=
  (pieces (fun c => c = ' ' || c = '\t' || c = '\r') (line.takeWhile (· ≠ ';'))).filter (· ≠ [])

/-- An octet of a dotted address: decimal, at most 255 (R79). -/
def readOctet (t : List Char) : Option Byte :=
  match readNatural 10 t with
  | some v => if v < 256 then some (BitVec.ofNat 8 v) else none
  | none => none

/-- A dotted address `a.b.c.d` (R79). -/
def readAddress (t : List Char) : Option Ipv4 :=
  match (pieces (· = '.') t).mapM readOctet with
  | some [a, b, c, d] => some ⟨a, b, c, d⟩
  | _ => none

/-- The nine flags with their names (R28, R79). -/
def flagNames : List (List Char × TcpFlag) :=
  [("FIN".toList, .fin), ("SYN".toList, .syn), ("RST".toList, .rst), ("PSH".toList, .psh), ("ACK".toList, .ack)] ++
  [("URG".toList, .urg), ("ECE".toList, .ece), ("CWR".toList, .cwr), ("NS".toList, .ns)]

/-- The flag of a name (R79). -/
def readFlag (t : List Char) : Option TcpFlag := (flagNames.find? (·.1 = t)).map (·.2)

/-- A command with its operands (R78): none for form Z, a byte count for form L, a value for form I. -/
def assembleCommand (row : OpcodeRow) (operands : List (List Char)) : Except AsmError Instr :=
  match row.form, operands with
  | .z, [] =>
    match formZ row.opc with
    | some i => .ok i
    | none => .error .unknownMnemonic
  | .l, [t] =>
    match readOperand t with
    | none => .error .badNumber
    | some n =>
      if n ≤ Config.maxLen then
        match formL row.opc n with
        | some i => .ok i
        | none => .error .unknownMnemonic
      else .error .lenTooLarge
  | .i, [t] =>
    match readOperand t with
    | none => .error .badNumber
    | some v =>
      if v ≤ 0xFFFFFFFF then
        match formI row.opc (BitVec.ofNat 32 v) with
        | some i => .ok i
        | none => .error .unknownMnemonic
      else .error .immTooLarge
  | _, _ => .error .operandCount

/-- The bytes of a list of tokens. -/
def readBytes (ts : List (List Char)) : Except AsmError (List Byte) :=
  match ts.mapM readByte with
  | some bytes => .ok bytes
  | none => .error .badByte

/-- A pseudo-instruction that carries bytes; their number is a form-L operand (R78, R79). -/
def assembleBytes (mk : List Byte → Pseudo) (ts : List (List Char)) : Except AsmError (List Item) :=
  match readBytes ts with
  | .error e => .error e
  | .ok bytes => if bytes.length ≤ Config.maxLen then .ok (mk bytes).expand else .error .lenTooLarge

/-- A pseudo-instruction that carries an address (R79). -/
def assembleAddress (mk : Ipv4 → Pseudo) (ts : List (List Char)) : Except AsmError (List Item) :=
  match ts with
  | [t] =>
    match readAddress t with
    | some addr => .ok (mk addr).expand
    | none => .error .badAddress
  | _ => .error .operandCount

/-- `SEG.FLAGSET f1|f2|...` (R79); no operand is the empty list. -/
def assembleFlagset (ts : List (List Char)) : Except AsmError (List Item) :=
  match ts with
  | [] => .ok (Pseudo.segFlagset []).expand
  | [t] =>
    match (pieces (· = '|') t).mapM readFlag with
    | some flags => .ok (Pseudo.segFlagset flags).expand
    | none => .error .badFlag
  | _ => .error .operandCount

/-- One line of assembly text (R78, R79). A line without a token, blank or a comment only, assembles to nothing: R78 does not
say what it is (log entry 9). -/
def assembleLine (line : List Char) : Except AsmError (List Item) :=
  match tokens line with
  | [] => .ok []
  | m :: ts =>
    if m = ".din".toList then
      match readBytes ts with
      | .ok bytes => .ok [.din bytes]
      | .error e => .error e
    else if m = "CS.ADDB".toList then assembleBytes .csAddB ts
    else if m = "CHECKSUM".toList then assembleBytes .checksum ts
    else if m = "ADDR.SRC4".toList then assembleAddress .addrSrc4 ts
    else if m = "ADDR.DST4".toList then assembleAddress .addrDst4 ts
    else if m = "SEG.FLAGSET".toList then assembleFlagset ts
    else if m = "SEG.ENCB".toList then assembleBytes .segEncB ts
    else
      match opcodeTable.find? (·.mnemonic.toList = m) with
      | none => .error .unknownMnemonic
      | some row =>
        match assembleCommand row ts with
        | .ok i => .ok [.command i]
        | .error e => .error e

/-- The lines of a program, one after the other. -/
def assembleLines : List (List Char) → Except AsmError (List Item)
  | [] => .ok []
  | l :: ls =>
    match assembleLine l with
    | .error e => .error e
    | .ok items =>
      match assembleLines ls with
      | .error e => .error e
      | .ok rest => .ok (items ++ rest)

/-- A program from its text, one command per line (R78). -/
def assemble (text : List Char) : Except AsmError (List Item) := assembleLines (pieces (· = '\n') text)

end Sys2Proof.Machine
end

