-- ==== Sys2Proof/Safety.lean ====
section
/-! DEFINITION. What claims are stated in: the invariant of a state, a held command, the end of a run, and the reference
definitions of the checksum of a byte stream. -/

namespace Sys2Proof

/-- A command that faults while the CS unit is FINALIZED (60_exceptions.md R182, R186): CS.ADD and CS.FIN. -/
def Instr.NeedsOpen (i : Instr) : Prop := i = .csFin ∨ ∃ n, i = .csAdd n

namespace Machine

/-- The bytes of an address register past the supplied length are 0x00 (10_state.md R30). -/
def AddrReg.Padded (r : AddrReg) : Prop := ∀ i : Fin 16, r.len.toNat ≤ i.val → r.bytes[i] = 0x00

/-- `pendingOddByte` is 0x00 when no byte is pending (10_state.md R23, R24). -/
def Checksummer.Settled (a : Checksummer) : Prop := a.odd = false → a.pendingOddByte = 0x00

/-- STATUS has a legal value (10_state.md R32): no fault and no code, or a fault and its code. -/
def Registers.StatusLegal (r : Registers) : Prop :=
  (r.fault = false ∧ r.faultCode = 0x00) ∨ (r.fault = true ∧ (r.faultCode = 0x80 ∨ r.faultCode = 0x81))

/-- The invariant of the registers (10_state.md R24, R30, R32). -/
def Registers.Inv (r : Registers) : Prop :=
  r.cs.Settled ∧ r.srcAddr.Padded ∧ r.dstAddr.Padded ∧ r.StatusLegal

/-- The command at the head of CMD is held for DIN bytes (70_reset_and_hazards.md R213): it passes the checks that come before
it in 60_exceptions.md R186, and DIN is too short for it. -/
def State.Held (s : State) : Prop :=
  ∃ w rest i, s.cmd = w :: rest ∧ s.fault = false ∧ decode w = .command i ∧
    ¬ (i.NeedsOpen ∧ s.phase = .finalized) ∧ s.din.length < i.len

/-- The run has ended (70_reset_and_hazards.md R220): no command waits or is held, and every command issued has its response. -/
def Session.Ended (x : Session) : Prop :=
  x.block.cmd = [] ∧ ¬ x.block.Held ∧ x.responses.length = x.issued

/-- A good end: the run has ended and has not faulted (R220, 60_exceptions.md R184). -/
def Session.EndedWell (x : Session) : Prop := x.Ended ∧ x.block.fault = false

/-- The little-endian sum of a byte stream over the naturals (40_checksum.md R105): pairs, then the trailing byte as a low byte. -/
def streamSum : List Byte → Nat
  | lo :: hi :: rest => lo.toNat + 256 * hi.toNat + streamSum rest
  | [last] => last.toNat
  | [] => 0

/-- The big-endian sum of a byte stream: pairs with the first byte high, and the trailing byte as a high byte
(the standard Internet checksum's sum, 40_checksum.md R110). -/
def streamSumBig : List Byte → Nat
  | hi :: lo :: rest => 256 * hi.toNat + lo.toNat + streamSumBig rest
  | [last] => 256 * last.toNat
  | [] => 0

/-- The complement of the folded sum, the sum taken mod 2^32 (40_checksum.md R105). -/
def complementOfFold (sum : Nat) : BitVec 16 := (~~~ fold (BitVec.ofNat 32 sum)).setWidth 16

/-- The closed form of the checksum of a byte stream (40_checksum.md R105). -/
def closedForm (stream : List Byte) : BitVec 16 := complementOfFold (streamSum stream)

end Machine

end Sys2Proof
end

