-- ==== Sys2Proof/Certificates/Slice0/Obligations.lean ====
section
/-! DEFINITION. The statements about the block, for the provers. A next state is written out as the old state with what the
rule changes, so each such equality is the command's completion and its frame at once; `cmd := s.cmd.tail` is the command
word leaving CMD. -/

open Sys2Proof Sys2Proof.Machine

-- 30_encoding.md: the words

/-- Every well-formed command is read back from its word. -/
def Obligations.DecodeOfEncodeIsCommand : Prop :=
  ∀ i : Instr, i.WellFormed → decode (encode i) = .command i

/-- Every legal word is the word of the one command it decodes to. -/
def Obligations.EncodeOfDecodeIsWord : Prop :=
  ∀ (w : Word) (i : Instr), decode w = .command i → i.WellFormed ∧ encode i = w

/-- A word decodes to the row of the opcode map whose match and mask it fits, and no two rows overlap. -/
def Obligations.WordDecodesToTheRowItFits : Prop :=
  (∀ (w : Word) (i : Instr), decode w = .command i → ∃ r ∈ opcodeTable, r.opc = i.opc ∧ r.Fits w) ∧
  (∀ (w : Word), ∀ r ∈ opcodeTable, r.Fits w → ∃ i, decode w = .command i ∧ i.opc = r.opc) ∧
  (∀ (w : Word), ∀ r₁ ∈ opcodeTable, ∀ r₂ ∈ opcodeTable, r₁.Fits w → r₂.Fits w → r₁ = r₂)

/-- R74, R185: the illegal words are exactly those of (a) to (d), every other word is one command, and executing an illegal
word raises the fault ILLEGAL_COMMAND, code 0x80, with its opcode in VALUE. -/
def Obligations.IllegalWordsAreThoseListed : Prop :=
  (∀ w : Word, (∃ r, decode w = .illegal r) ↔
    (let o := (w.extractLsb' 56 8).toNat
     o = 0x00 ∨ (0x04 ≤ o ∧ o ≤ 0x0F) ∨ (0x19 ≤ o ∧ o ≤ 0x1F) ∨ (0x22 ≤ o ∧ o ≤ 0x2F) ∨ (0x31 ≤ o ∧ o ≤ 0xFF) ∨
     ((o = 0x01 ∨ o = 0x03 ∨ o = 0x10) ∧ w.extractLsb' 0 56 ≠ 0) ∨
     ((o = 0x02 ∨ o = 0x20 ∨ o = 0x21 ∨ o = 0x30) ∧ w.extractLsb' 0 32 ≠ 0) ∨
     ((0x11 ≤ o ∧ o ≤ 0x18) ∧ w.extractLsb' 32 24 ≠ 0))) ∧
  (∀ w : Word, (∃ i, decode w = .command i) ∨ (∃ r, decode w = .illegal r)) ∧
  (∀ (s : State) (w : Word) (rest : List Word) (r : Illegal),
    s.cmd = w :: rest → s.fault = false → decode w = .illegal r →
    step s = .next { s with
      fault := true, faultCode := 0x80, cmd := rest
      rsp := s.rsp ++ [0x80#8 ++ 0#24 ++ (w.extractLsb' 56 8).setWidth 32] })

/-- A few words of the spec's tables decode to the commands they stand for, and a few to none. -/
def Obligations.SpecWordsDecode : Prop :=
  decode 0x0100000000000000 = .command .csInit ∧
  decode 0x02FFFFFF00000000 = .command (.csAdd 16777215) ∧
  decode 0x1100000000012345 = .command (.segSport 0x12345) ∧
  decode 0x18000000FFFFFFFF = .command (.segUrg 0xFFFFFFFF) ∧
  decode 0x2000001000000000 = .command (.addrSrc 16) ∧
  decode 0x3000000500000000 = .command (.segEnc 5) ∧
  decode 0x0300000100000000 = .illegal .formZField ∧
  decode 0x0200000500000001 = .illegal .formLImm ∧
  decode 0x1100000100000050 = .illegal .formILen ∧
  decode 0x3100000000000000 = .illegal .reservedOpcode

-- 60_exceptions.md and 70_reset_and_hazards.md: steps, faults, holds

/-- A step runs the command that the word at the head of CMD decodes to. -/
def Obligations.StepRunsDecodedCommand : Prop :=
  ∀ (s : State) (w : Word) (rest : List Word) (i : Instr),
    s.cmd = w :: rest → s.fault = false → decode w = .command i → step s = exec i s

/-- With CMD empty the block is idle, all state intact. That idleness is a step which changes nothing is the model's reading
(log entry 3). -/
def Obligations.IdleBlockKeepsItsState : Prop :=
  ∀ s : State, s.cmd = [] → step s = .next s

/-- Nothing stops the model: every step and every command, in whatever state, answers a next state. That holds because idleness
and a hold are steps which change nothing (log entries 3 and 4, the model's reading; the spec calls a hold that never ends stuck).
A meaning called in the fault state answers BLOCKED as the step does (log entry 6). -/
def Obligations.StepAndExecAlwaysAnswer : Prop :=
  (∀ s : State, ∃ t, step s = .next t) ∧
  (∀ (i : Instr) (s : State), ∃ t, exec i s = .next t) ∧
  (∀ (i : Instr) (s : State), s.fault = true →
    exec i s = .next { s with cmd := s.cmd.tail, rsp := s.rsp ++ [0xFF00000000000000] })

/-- R184: in the fault state every command word, whatever it is, is answered BLOCKED with no other effect; only reset leaves
the fault state; and a run that is in it has not ended well. -/
def Obligations.FaultStateRejectsEveryCommand : Prop :=
  (∀ (s : State) (w : Word) (rest : List Word), s.cmd = w :: rest → s.fault = true →
    step s = .next { s with cmd := rest, rsp := s.rsp ++ [0xFF00000000000000] }) ∧
  (∀ (x y : Session) (e : Event), x.block.fault = true → e ≠ .host .reset → x.next e = .next y →
    y.block.fault = true ∧ y.block.faultCode = x.block.faultCode) ∧
  (∀ x : Session, (x.host .reset).block.fault = false) ∧
  (∀ x : Session, x.block.fault = true → ¬ x.EndedWell)

/-- R183: a step that enters the fault state sets FAULT and FAULT_CODE, answers the code and the opcode of the faulting word,
and changes nothing else. -/
def Obligations.FaultEntryIsPrecise : Prop :=
  ∀ s t : State, s.fault = false → step s = .next t → t.fault = true →
    ∃ (w : Word) (rest : List Word) (code : Byte),
      s.cmd = w :: rest ∧ (code = 0x80 ∨ code = 0x81) ∧
      t = { s with
            fault := true, faultCode := code, cmd := rest
            rsp := s.rsp ++ [code ++ 0#24 ++ (w.extractLsb' 56 8).setWidth 32] }

/-- R182: CS.ADD, for every length and whatever DIN holds, and CS.FIN raise USE_AFTER_FINALIZE while FINALIZED. -/
def Obligations.UseAfterFinalizeFaults : Prop :=
  ∀ s : State, s.fault = false → s.phase = .finalized →
    (∀ n : Nat, exec (.csAdd n) s = .next { s with
      fault := true, faultCode := 0x81, cmd := s.cmd.tail, rsp := s.rsp ++ [0x8100000000000002] }) ∧
    exec .csFin s = .next { s with
      fault := true, faultCode := 0x81, cmd := s.cmd.tail, rsp := s.rsp ++ [0x8100000000000003] }

/-- A step enters the fault state exactly on an illegal word, or on CS.ADD or CS.FIN while FINALIZED, and FAULT_CODE says
which; no other command faults. -/
def Obligations.FaultsHaveExactlyTwoCauses : Prop :=
  ∀ (s t : State) (w : Word) (rest : List Word), s.cmd = w :: rest → s.fault = false → step s = .next t →
    (t.fault = true ↔
      (∃ r, decode w = .illegal r) ∨ (∃ i, decode w = .command i ∧ i.NeedsOpen ∧ s.phase = .finalized)) ∧
    (t.fault = true → (t.faultCode = 0x80 ↔ ∃ r, decode w = .illegal r))

/-- R76: each command taken from CMD appends exactly one response word, bits 55:32 zero, with the VALUE that R76 gives for its
STATUS. -/
def Obligations.EachTakenCommandAnswersOnce : Prop :=
  ∀ (s t : State) (w : Word) (rest : List Word), s.cmd = w :: rest → step s = .next t → t.cmd = rest →
    ∃ (code : Byte) (value : BitVec 32), t.rsp = s.rsp ++ [code ++ 0#24 ++ value] ∧
      ((code = 0x00 ∧ decode w = .command .csFin ∧ value = s.cs.finalize.setWidth 32) ∨
       (code = 0x00 ∧ ∃ n, decode w = .command (.segEnc n) ∧ value.toNat = 20 + n) ∨
       (code = 0x00 ∧ decode w ≠ .command .csFin ∧ (∀ n, decode w ≠ .command (.segEnc n)) ∧
          (∃ i, decode w = .command i) ∧ value = 0) ∨
       (code = 0x01 ∧ (∃ n, decode w = .command (.segEnc n)) ∧ value = 0) ∨
       ((code = 0x80 ∨ code = 0x81) ∧ value = (w.extractLsb' 56 8).setWidth 32) ∨
       (code = 0xFF ∧ s.fault = true ∧ value = 0))

/-- A step takes the command at the head of CMD unless there is none or it is held; then it changes nothing (log entries 3 and
4). -/
def Obligations.StepTakesTheCommandUnlessHeld : Prop :=
  ∀ s t : State, step s = .next t →
    ((s.cmd = [] ∨ s.Held) ∧ t = s) ∨ (¬ s.Held ∧ ∃ (w : Word) (rest : List Word), s.cmd = w :: rest ∧ t.cmd = rest)

/-- A held command changes no state and emits nothing, so it stays held for any number of steps and the run has not ended.
That a hold is a step which changes nothing is the model's reading (log entry 4). -/
def Obligations.HeldCommandIsStuck : Prop :=
  ∀ s : State, s.Held → (∀ k : Nat, Sys2Proof.core.run k s = .next s) ∧ ∀ x : Session, x.block = s → ¬ x.Ended

/-- A held command ends once its bytes arrive: with DIN long enough the next step takes it. -/
def Obligations.HeldCommandProceedsWithBytes : Prop :=
  ∀ (s : State) (w : Word) (rest : List Word) (i : Instr) (more : List Byte),
    s.cmd = w :: rest → s.Held → decode w = .command i → i.len ≤ (s.din ++ more).length →
    ∃ t, step { s with din := s.din ++ more } = .next t ∧ t.cmd = rest ∧ t.fault = false ∧
      t.din = (s.din ++ more).drop i.len

/-- A command that is taken without a fault removes exactly its LEN bytes from the front of DIN, and a fault or a rejection moves
no byte; a taken command appends nothing to DOUT, or it is SEG.ENC, answers OK and appends `20 + n` bytes; SEG.ENC answered OK
appends them. -/
def Obligations.StreamsMoveByExactLengths : Prop :=
  ∀ (s t : State) (w : Word) (rest : List Word) (i : Instr),
    s.cmd = w :: rest → decode w = .command i → step s = .next t → t.cmd = rest →
    (t.fault = false → i.len ≤ s.din.length ∧ t.din = s.din.drop i.len) ∧
    (t.fault = true → t.din = s.din ∧ t.dout = s.dout) ∧
    (t.dout = s.dout ∨
      ∃ n emitted, i = .segEnc n ∧ t.dout = s.dout ++ emitted ∧ emitted.length = 20 + n ∧
        t.rsp = s.rsp ++ [BitVec.ofNat 64 (20 + n)]) ∧
    (∀ n : Nat, i = .segEnc n → t.rsp = s.rsp ++ [BitVec.ofNat 64 (20 + n)] →
      ∃ emitted, t.dout = s.dout ++ emitted ∧ emitted.length = 20 + n)

/-- Whatever the host or the block does, short of reset, responses and DOUT bytes are only appended, at most one response at a
time: none is lost, changed or reordered. -/
def Obligations.OutputsAreOnlyAppended : Prop :=
  ∀ (x y : Session) (e : Event), e ≠ .host .reset → x.next e = .next y →
    ∃ (words : List Word) (bytes : List Byte),
      y.responses = x.responses ++ words ∧ words.length ≤ 1 ∧ y.output = x.output ++ bytes

-- Invariants

/-- Every step keeps the register invariant: the pending byte is 0x00 when no byte is pending, address bytes past the length
are 0x00, and STATUS has a legal value. -/
def Obligations.RegisterInvariantIsKept : Prop :=
  ∀ s t : State, s.toRegisters.Inv → step s = .next t → t.toRegisters.Inv

/-- The register invariant holds at reset. -/
def Obligations.RegisterInvariantAtReset : Prop := State.reset.toRegisters.Inv

/-- Every event of a run keeps the account of commands: those issued are those answered and those still in CMD. -/
def Obligations.IssuedCommandsAreAccounted : Prop :=
  (Session.start.issued = Session.start.responses.length + Session.start.block.cmd.length) ∧
  ∀ (x y : Session) (e : Event), x.issued = x.responses.length + x.block.cmd.length → x.next e = .next y →
    y.issued = y.responses.length + y.block.cmd.length

-- 10_state.md and 70_reset_and_hazards.md: reset and STATUS

/-- The registers and queues after reset, and the reset event, which gives them from any state. -/
def Obligations.ResetLeavesTheseValues : Prop :=
  (let r := State.reset
   r.cs = ⟨0, 0, 0⟩ ∧ r.phase = .opened ∧ r.seg = ⟨0, 0, 0, 0, 5, 0, 0, 0⟩ ∧
   r.srcAddr.len = 0 ∧ (∀ k : Fin 16, r.srcAddr.bytes[k] = 0) ∧
   r.dstAddr.len = 0 ∧ (∀ k : Fin 16, r.dstAddr.bytes[k] = 0) ∧
   r.fault = false ∧ r.faultCode = 0x00 ∧ r.cmd = [] ∧ r.din = [] ∧ r.dout = [] ∧ r.rsp = []) ∧
  ∀ x : Session, x.next (.host .reset) = .next Session.start ∧ (x.host .reset).block = State.reset

/-- R211: after reset the block is idle and not in the fault state, and executes the first command word that arrives. -/
def Obligations.FirstCommandAfterResetRuns : Prop :=
  State.reset.fault = false ∧ State.reset.cmd = [] ∧
  ∀ (w : Word) (i : Instr), decode w = .command i →
    ∃ x : Session, Session.start.next (.host (.issue w)) = .next x ∧ step x.block = exec i x.block

/-- The STATUS register: FAULT in bit 0, CS_PHASE in bit 1, bits 7:2 zero, FAULT_CODE in bits 15:8; 0 at reset. -/
def Obligations.StatusRegisterLayout : Prop :=
  (∀ r : Registers,
    r.status.getLsbD 0 = r.fault ∧ (r.status.getLsbD 1 = true ↔ r.phase = .finalized) ∧
    r.status.extractLsb' 2 6 = 0 ∧ r.status.extractLsb' 8 8 = r.faultCode) ∧
  State.reset.toRegisters.status = 0

-- 40_checksum.md: the Checksum Engine

/-- R101: CS.INIT, in either phase, resets S0 to S2, opens the unit, answers OK and changes nothing else; it is the only command
that leaves FINALIZED. -/
def Obligations.CsInitStartsFresh : Prop :=
  encode .csInit = 0x0100000000000000 ∧
  (∀ s : State, s.fault = false →
    exec .csInit s = .next { s with
      cs := { runningSum := 0, pendingOddByte := 0, totalBytesSeen := 0 }, phase := .opened
      cmd := s.cmd.tail, rsp := s.rsp ++ [0x0000000000000000] }) ∧
  (∀ s t : State, step s = .next t → s.phase = .finalized → t.phase = .opened →
    ∃ rest : List Word, s.cmd = encode .csInit :: rest)

/-- R102: CS.ADD takes `n` bytes and adds them one by one by the rule of the loop, and faults in FINALIZED with nothing taken
(the hold is in StepTakesTheCommandUnlessHeld). -/
def Obligations.CsAddAppendsItsChunk : Prop :=
  (∀ n : Nat, encode (.csAdd n) = 0x02#8 ++ BitVec.ofNat 24 n ++ 0#32) ∧
  (∀ (s : State) (n : Nat), s.fault = false → s.phase = .opened → n ≤ s.din.length →
    exec (.csAdd n) s = .next { s with
      cs := s.cs.add (s.din.take n), din := s.din.drop n
      cmd := s.cmd.tail, rsp := s.rsp ++ [0x0000000000000000] }) ∧
  (∀ (s : State) (n : Nat), s.fault = false → s.phase = .finalized →
    exec (.csAdd n) s = .next { s with
      fault := true, faultCode := 0x81, cmd := s.cmd.tail, rsp := s.rsp ++ [0x8100000000000002] }) ∧
  (∀ a : Checksummer, a.add [] = a) ∧
  (∀ (a : Checksummer) (b : Byte) (rest : List Byte), a.totalBytesSeen.getLsbD 0 = true →
    a.add (b :: rest) =
      Checksummer.add
        { runningSum := a.runningSum + a.pendingOddByte.setWidth 32 + b.setWidth 32 * 256
          pendingOddByte := 0, totalBytesSeen := a.totalBytesSeen + 1 } rest) ∧
  (∀ (a : Checksummer) (b : Byte) (rest : List Byte), a.totalBytesSeen.getLsbD 0 = false →
    a.add (b :: rest) =
      Checksummer.add { a with pendingOddByte := b, totalBytesSeen := a.totalBytesSeen + 1 } rest)

/-- R103: CS.FIN answers the complement of the folded sum, the odd trailing byte added as a low byte; it enters FINALIZED and
leaves S0 to S2 unchanged; a second one faults. -/
def Obligations.CsFinAnswersTheChecksum : Prop :=
  encode .csFin = 0x0300000000000000 ∧
  (∀ s : State, s.fault = false → s.phase = .opened →
    exec .csFin s = .next { s with
      phase := .finalized, cmd := s.cmd.tail
      rsp := s.rsp ++ [0x00#8 ++ 0#24 ++
        (((~~~ fold (if s.cs.totalBytesSeen.getLsbD 0 then s.cs.runningSum + s.cs.pendingOddByte.setWidth 32
                     else s.cs.runningSum)) &&& 0xFFFF) : BitVec 32)] }) ∧
  (∀ s : State, s.fault = false → s.phase = .finalized →
    exec .csFin s = .next { s with
      fault := true, faultCode := 0x81, cmd := s.cmd.tail, rsp := s.rsp ++ [0x8100000000000003] })

/-- `fold` is the loop of 40_checksum.md section 3: while the value is above 0xFFFF, the high half is added into the low half.
Two passes are enough for 32 bits, 0 folds to 0 and nothing else does (the spec's own inference there). -/
def Obligations.FoldIsTheLoop : Prop :=
  ∀ s : BitVec 32,
    fold s = (if s.toNat > 0xFFFF then fold ((s >>> 16) + (s &&& 0xFFFF)) else s) ∧
    (fold s).toNat ≤ 0xFFFF ∧ (1 ≤ s.toNat → 1 ≤ (fold s).toNat) ∧ fold 0 = 0

/-- The closed form: a checksum computed over any chunks is that of the whole stream, the complement of the folded sum of its
little-endian pairs and its trailing byte (the spec derives it in 40_checksum.md section 3). -/
def Obligations.ChecksumHasClosedForm : Prop :=
  ∀ chunks : List (List Byte),
    (chunks.foldl Checksummer.add Checksummer.fresh).finalize = closedForm chunks.flatten

/-- A computation run on the block: CS.INIT, one CS.ADD per chunk, CS.FIN, each answered in turn; the last answer is the closed
form of the whole stream, and only the CS unit and the streams have changed. -/
def Obligations.ChunkedRunAnswersClosedForm : Prop :=
  ∀ (s : State) (chunks : List (List Byte)) (later : List Word) (more : List Byte),
    s.fault = false → (∀ c ∈ chunks, c.length ≤ 16777215) →
    s.cmd = encode .csInit :: (chunks.map fun c => encode (.csAdd c.length)) ++ encode .csFin :: later →
    s.din = chunks.flatten ++ more →
    ∃ t, Sys2Proof.core.run (chunks.length + 2) s = .next t ∧
      t = { s with
            cs := Checksummer.fresh.add chunks.flatten, phase := .finalized, cmd := later, din := more
            rsp := s.rsp ++ List.replicate (chunks.length + 1) 0#64 ++
              [(closedForm chunks.flatten).setWidth 64] }

/-- Chunking invariance on the block: one CS.ADD with the whole sequence and any partition of it leave the same S0 to S2 and
give the same final response (a law the spec derives, 40_checksum.md section 3). -/
def Obligations.ChunkingDoesNotMatter : Prop :=
  ∀ (s : State) (chunks : List (List Byte)),
    s.fault = false → (∀ c ∈ chunks, c.length ≤ 16777215) → chunks.flatten.length ≤ 16777215 →
    ∃ t₁ t₂ : State,
      Sys2Proof.core.run 3 { s with
        cmd := [encode .csInit, encode (.csAdd chunks.flatten.length), encode .csFin], din := chunks.flatten } = .next t₁ ∧
      Sys2Proof.core.run (chunks.length + 2) { s with
        cmd := encode .csInit :: (chunks.map fun c => encode (.csAdd c.length)) ++ [encode .csFin]
        din := chunks.flatten } = .next t₂ ∧
      t₁.cs = t₂.cs ∧ t₁.cmd = [] ∧ t₂.cmd = [] ∧ t₁.rsp.getLast? = t₂.rsp.getLast?

/-- Boundary values: an empty stream and a stream of zero bytes give 0xFFFF, 0xFFFF comes only from the sum 0, and 0x0000 exactly
from the folded sum 0xFFFF (derived in 40_checksum.md section 3). -/
def Obligations.ChecksumBoundaryValues : Prop :=
  (∀ k : Nat, (Checksummer.fresh.add (List.replicate k 0x00)).finalize = 0xFFFF) ∧
  (∀ a : Checksummer, a.finalize = 0xFFFF ↔ a.total = 0) ∧
  (∀ a : Checksummer, a.finalize = 0x0000 ↔ fold a.total = 0xFFFF) ∧
  (Checksummer.fresh.add [0xff, 0xff]).finalize = 0x0000

/-- The accumulator does not wrap for a stream of at most 131,074 bytes; past that it can, as the example of 131,076 bytes of
0xFF shows. -/
def Obligations.AccumulatorWrapsOnlyPastBound : Prop :=
  (∀ stream : List Byte, stream.length ≤ 131074 →
    streamSum stream < 2 ^ 32 ∧ (Checksummer.fresh.add stream).total.toNat = streamSum stream) ∧
  (Checksummer.fresh.add (List.replicate 131074 0xff)).runningSum = 0xFFFFFFFF ∧
  (Checksummer.fresh.add (List.replicate 131076 0xff)).finalize = 0x0001

/-- The checksum written low byte first is the standard big-endian Internet checksum of the stream, for every stream on which the
accumulator cannot wrap (the consequence 40_checksum.md section 3 derives). -/
def Obligations.WireChecksumIsStandard : Prop :=
  ∀ stream : List Byte, stream.length ≤ 131074 →
    (let c := (Checksummer.fresh.add stream).finalize
     c.extractLsb' 0 8 ++ c.extractLsb' 8 8 = complementOfFold (streamSumBig stream))

-- 41_segment_fields.md: the segment fields and addresses

/-- R122: SEG.NEW gives every field its default and leaves every other register, the addresses among them, unchanged. -/
def Obligations.SegNewGivesDefaults : Prop :=
  encode .segNew = 0x1000000000000000 ∧
  ∀ s : State, s.fault = false →
    exec .segNew s = .next { s with
      seg := { sourcePort := 0, destPort := 0, sequenceNumber := 0, acknowledgmentNumber := 0,
               dataOffset := 5, flags := 0, windowSize := 0, urgentPointer := 0 }
      cmd := s.cmd.tail, rsp := s.rsp ++ [0x0000000000000000] }

/-- R123, R124: SEG.SPORT and SEG.DPORT keep the low 16 bits of IMM. -/
def Obligations.PortWritesKeepLowBits : Prop :=
  (∀ v : BitVec 32, encode (.segSport v) = 0x11000000#32 ++ v ∧ encode (.segDport v) = 0x12000000#32 ++ v) ∧
  ∀ (s : State) (v : BitVec 32), s.fault = false →
    exec (.segSport v) s = .next { s with
      seg := { s.seg with sourcePort := v.extractLsb' 0 16 }
      cmd := s.cmd.tail, rsp := s.rsp ++ [0x0000000000000000] } ∧
    exec (.segDport v) s = .next { s with
      seg := { s.seg with destPort := v.extractLsb' 0 16 }
      cmd := s.cmd.tail, rsp := s.rsp ++ [0x0000000000000000] }

/-- R125, R126: SEG.SEQ and SEG.ACK store all 32 bits of IMM. -/
def Obligations.NumberWritesKeepAllBits : Prop :=
  (∀ v : BitVec 32, encode (.segSeq v) = 0x13000000#32 ++ v ∧ encode (.segAck v) = 0x14000000#32 ++ v) ∧
  ∀ (s : State) (v : BitVec 32), s.fault = false →
    exec (.segSeq v) s = .next { s with
      seg := { s.seg with sequenceNumber := v }
      cmd := s.cmd.tail, rsp := s.rsp ++ [0x0000000000000000] } ∧
    exec (.segAck v) s = .next { s with
      seg := { s.seg with acknowledgmentNumber := v }
      cmd := s.cmd.tail, rsp := s.rsp ++ [0x0000000000000000] }

/-- R127, R128: SEG.DOFF keeps the low 4 bits of IMM, SEG.FLAGS the low 9. -/
def Obligations.OffsetAndFlagWritesKeepLowBits : Prop :=
  (∀ v : BitVec 32, encode (.segDoff v) = 0x15000000#32 ++ v ∧ encode (.segFlags v) = 0x16000000#32 ++ v) ∧
  ∀ (s : State) (v : BitVec 32), s.fault = false →
    exec (.segDoff v) s = .next { s with
      seg := { s.seg with dataOffset := v.extractLsb' 0 4 }
      cmd := s.cmd.tail, rsp := s.rsp ++ [0x0000000000000000] } ∧
    exec (.segFlags v) s = .next { s with
      seg := { s.seg with flags := v.extractLsb' 0 9 }
      cmd := s.cmd.tail, rsp := s.rsp ++ [0x0000000000000000] }

/-- R129, R130: SEG.WIN and SEG.URG keep the low 16 bits of IMM. -/
def Obligations.WindowAndUrgentWritesKeepLowBits : Prop :=
  (∀ v : BitVec 32, encode (.segWin v) = 0x17000000#32 ++ v ∧ encode (.segUrg v) = 0x18000000#32 ++ v) ∧
  ∀ (s : State) (v : BitVec 32), s.fault = false →
    exec (.segWin v) s = .next { s with
      seg := { s.seg with windowSize := v.extractLsb' 0 16 }
      cmd := s.cmd.tail, rsp := s.rsp ++ [0x0000000000000000] } ∧
    exec (.segUrg v) s = .next { s with
      seg := { s.seg with urgentPointer := v.extractLsb' 0 16 }
      cmd := s.cmd.tail, rsp := s.rsp ++ [0x0000000000000000] }

/-- R131, R132: ADDR.SRC and ADDR.DST take `n` bytes, keep the length and the first sixteen of them with 0x00 in the rest, and
change nothing else; the whole old register is replaced. -/
def Obligations.AddressWritesKeepSixteenBytes : Prop :=
  (∀ n : Nat, encode (.addrSrc n) = 0x20#8 ++ BitVec.ofNat 24 n ++ 0#32 ∧
    encode (.addrDst n) = 0x21#8 ++ BitVec.ofNat 24 n ++ 0#32) ∧
  ∀ (s : State) (n : Nat), s.fault = false → n ≤ 16777215 → n ≤ s.din.length →
    ∃ r : AddrReg, r.len.toNat = n ∧
      (∀ k : Fin 16, r.bytes[k] = if k.val < n then s.din.getD k.val 0 else 0) ∧
      exec (.addrSrc n) s = .next { s with
        srcAddr := r, din := s.din.drop n, cmd := s.cmd.tail, rsp := s.rsp ++ [0x0000000000000000] } ∧
      exec (.addrDst n) s = .next { s with
        dstAddr := r, din := s.din.drop n, cmd := s.cmd.tail, rsp := s.rsp ++ [0x0000000000000000] }

/-- The frame of the segment and address commands in every state, the fault state and a hold included: the CS unit, STATUS and
DOUT never change, SEG.NEW and the field writes leave the addresses and DIN alone, an address command leaves the segment fields
and the other address alone. -/
def Obligations.SegmentCommandsKeepTheRest : Prop :=
  ∀ (i : Instr) (s t : State), exec i s = .next t →
    (i = .segNew ∨ (∃ v, i = .segSport v ∨ i = .segDport v ∨ i = .segSeq v ∨ i = .segAck v ∨ i = .segDoff v ∨
        i = .segFlags v ∨ i = .segWin v ∨ i = .segUrg v) →
      { t with seg := s.seg, cmd := s.cmd, rsp := s.rsp } = s) ∧
    (∀ n, i = .addrSrc n → { t with srcAddr := s.srcAddr, din := s.din, cmd := s.cmd, rsp := s.rsp } = s) ∧
    (∀ n, i = .addrDst n → { t with dstAddr := s.dstAddr, din := s.din, cmd := s.cmd, rsp := s.rsp } = s)

-- 42_segment_encode.md: SEG.ENC

/-- R150: a 4-byte address resolves to its bytes, a 16-byte one only in IPv4-mapped form and only if the parameter accepts it, and
every other one is INVALID, for either value of the parameter. -/
def Obligations.AddressesResolveAsListed : Prop :=
  ∀ (accept : Bool) (r : AddrReg),
    (r.len.toNat = 4 → resolve4 accept r = some ⟨r.bytes[0], r.bytes[1], r.bytes[2], r.bytes[3]⟩) ∧
    (r.len.toNat = 16 → accept = true → (∀ k : Fin 16, k.val < 10 → r.bytes[k] = 0x00) →
      r.bytes[10] = 0xff → r.bytes[11] = 0xff →
      resolve4 accept r = some ⟨r.bytes[12], r.bytes[13], r.bytes[14], r.bytes[15]⟩) ∧
    (r.len.toNat ≠ 4 → r.len.toNat ≠ 16 → resolve4 accept r = none) ∧
    (r.len.toNat = 16 → accept = false → resolve4 accept r = none) ∧
    (r.len.toNat = 16 → (∃ k : Fin 16, k.val < 10 ∧ r.bytes[k] ≠ 0x00) ∨ r.bytes[10] ≠ 0xff ∨ r.bytes[11] ≠ 0xff →
      resolve4 accept r = none)

/-- R151: the twenty header bytes, every multi-byte field most significant byte first, the checksum field zero. -/
def Obligations.HeaderHasThisLayout : Prop :=
  ∀ g : TcpSegment,
    header g =
      [g.sourcePort.extractLsb' 8 8, g.sourcePort.extractLsb' 0 8,
       g.destPort.extractLsb' 8 8, g.destPort.extractLsb' 0 8,
       g.sequenceNumber.extractLsb' 24 8, g.sequenceNumber.extractLsb' 16 8,
       g.sequenceNumber.extractLsb' 8 8, g.sequenceNumber.extractLsb' 0 8,
       g.acknowledgmentNumber.extractLsb' 24 8, g.acknowledgmentNumber.extractLsb' 16 8,
       g.acknowledgmentNumber.extractLsb' 8 8, g.acknowledgmentNumber.extractLsb' 0 8,
       (g.dataOffset.setWidth 8 <<< 4) ||| (g.flags.extractLsb' 8 1).setWidth 8, g.flags.extractLsb' 0 8,
       g.windowSize.extractLsb' 8 8, g.windowSize.extractLsb' 0 8, 0x00, 0x00,
       g.urgentPointer.extractLsb' 8 8, g.urgentPointer.extractLsb' 0 8]

/-- R152: each flag at its bit of header bytes 12 and 13, `dataOffset` in the top four bits of byte 12, its bits 3:1 zero; and the
word the two bytes make. -/
def Obligations.FlagsArePackedAsListed : Prop :=
  ∀ g : TcpSegment,
    (∀ b12 b13 : Byte, (header g)[12]? = some b12 → (header g)[13]? = some b13 →
      b13.getLsbD 0 = g.hasFlag .fin ∧ b13.getLsbD 1 = g.hasFlag .syn ∧ b13.getLsbD 2 = g.hasFlag .rst ∧
      b13.getLsbD 3 = g.hasFlag .psh ∧ b13.getLsbD 4 = g.hasFlag .ack ∧ b13.getLsbD 5 = g.hasFlag .urg ∧
      b13.getLsbD 6 = g.hasFlag .ece ∧ b13.getLsbD 7 = g.hasFlag .cwr ∧ b12.getLsbD 0 = g.hasFlag .ns ∧
      b12.extractLsb' 1 3 = 0 ∧ b12.extractLsb' 4 4 = g.dataOffset ∧
      b12 ++ b13 = (g.dataOffset.setWidth 16 <<< 12) ||| g.flags.setWidth 16) ∧
    (∃ b12 b13, (header g)[12]? = some b12 ∧ (header g)[13]? = some b13)

/-- R153: the twelve bytes of the pseudo-header; its length field is `(20 + n) mod 2^16`. -/
def Obligations.PseudoHeaderHasThisLayout : Prop :=
  ∀ (src dst : Ipv4) (n : Nat),
    pseudoHeader src dst n =
      [src.a, src.b, src.c, src.d, dst.a, dst.b, dst.c, dst.d, 0x00, 0x06,
       BitVec.ofNat 8 ((20 + n) % 2 ^ 16 / 256), BitVec.ofNat 8 ((20 + n) % 2 ^ 16 % 256)]

/-- The checksum of a segment is the closed form over pseudo-header, header and payload in that order (derived in
42_segment_encode.md section 1). -/
def Obligations.SegmentChecksumHasClosedForm : Prop :=
  ∀ ph h p : List Byte, checksumOfSegment ph h p = closedForm (ph ++ h ++ p)

/-- The injector writes the checksum low byte first at offsets 16 and 17 and no other byte (C2, 42_segment_encode.md section 1). -/
def Obligations.InjectorWritesLowByteFirst : Prop :=
  ∀ (c : BitVec 16) (h : List Byte), 18 ≤ h.length →
    (injectChecksum c h)[16]? = some (c.extractLsb' 0 8) ∧ (injectChecksum c h)[17]? = some (c.extractLsb' 8 8) ∧
    (injectChecksum c h).length = h.length ∧
    ∀ k : Nat, k ≠ 16 → k ≠ 17 → (injectChecksum c h)[k]? = h[k]?

/-- R156: SEG.ENC with both addresses valid emits the header with its checksum and the payload and answers `OK, 20 + n`; with an
invalid address it takes the payload, emits nothing and answers INVALID_ADDRESS; no register changes (the hold is in
StepTakesTheCommandUnlessHeld). -/
def Obligations.SegEncEmitsTheSegment : Prop :=
  (∀ n : Nat, encode (.segEnc n) = 0x30#8 ++ BitVec.ofNat 24 n ++ 0#32) ∧
  (∀ (s : State) (n : Nat) (src dst : Ipv4), s.fault = false → n ≤ s.din.length →
    resolve4 Config.v4MappedAccept s.srcAddr = some src → resolve4 Config.v4MappedAccept s.dstAddr = some dst →
    exec (.segEnc n) s = .next { s with
      din := s.din.drop n, cmd := s.cmd.tail
      dout := s.dout ++
        (injectChecksum (checksumOfSegment (pseudoHeader src dst n) (header s.seg) (s.din.take n)) (header s.seg) ++
          s.din.take n)
      rsp := s.rsp ++ [0x00#8 ++ 0#24 ++ BitVec.ofNat 32 (20 + n)] }) ∧
  (∀ (s : State) (n : Nat), s.fault = false → n ≤ s.din.length →
    resolve4 Config.v4MappedAccept s.srcAddr = none ∨ resolve4 Config.v4MappedAccept s.dstAddr = none →
    exec (.segEnc n) s = .next { s with
      din := s.din.drop n, cmd := s.cmd.tail, rsp := s.rsp ++ [0x0100000000000000] })

/-- R181: with an invalid address SEG.ENC answers INVALID_ADDRESS, takes its payload, emits no byte, changes no register, and does
not fault. -/
def Obligations.InvalidAddressIsNoFault : Prop :=
  ∀ (s : State) (n : Nat), s.fault = false → n ≤ s.din.length →
    resolve4 Config.v4MappedAccept s.srcAddr = none ∨ resolve4 Config.v4MappedAccept s.dstAddr = none →
    ∃ t, exec (.segEnc n) s = .next t ∧ t.rsp = s.rsp ++ [0x0100000000000000] ∧
      t.din = s.din.drop n ∧ t.dout = s.dout ∧ t.toRegisters = s.toRegisters

/-- R157: a successful SEG.ENC appends exactly `20 + n` bytes to DOUT, the payload verbatim after the header, whatever
`dataOffset` is. -/
def Obligations.OutputIsHeaderThenPayload : Prop :=
  ∀ (s t : State) (n : Nat), s.fault = false → n ≤ s.din.length → exec (.segEnc n) s = .next t →
    (resolve4 Config.v4MappedAccept s.srcAddr).isSome → (resolve4 Config.v4MappedAccept s.dstAddr).isSome →
    ∃ head : List Byte, head.length = 20 ∧ t.dout = s.dout ++ head ++ s.din.take n ∧
      (s.din.take n).length = n ∧ head.take 16 = (header s.seg).take 16 ∧ head.drop 18 = (header s.seg).drop 18

/-- SEG.ENC writes no register in any case, and from DIN it only takes, to DOUT and RSP only appends. -/
def Obligations.SegEncWritesNoRegister : Prop :=
  ∀ (s t : State) (n : Nat), exec (.segEnc n) s = .next t →
    t.toRegisters = s.toRegisters ∧ (∃ bytes, t.dout = s.dout ++ bytes) ∧ (∃ k, t.din = s.din.drop k) ∧
    (∃ words, t.rsp = s.rsp ++ words) ∧ (t.cmd = s.cmd ∨ t.cmd = s.cmd.tail)

/-- The same SEG.ENC twice, with the same payload bytes, emits the same DOUT bytes and the same response twice (derived in
42_segment_encode.md section 3). -/
def Obligations.RepeatedEncodeIsIdentical : Prop :=
  ∀ (s : State) (p more : List Byte) (later : List Word),
    s.fault = false → p.length ≤ 16777215 →
    s.cmd = encode (.segEnc p.length) :: encode (.segEnc p.length) :: later → s.din = p ++ p ++ more →
    ∃ (bytes : List Byte) (answer : Word),
      Sys2Proof.core.run 2 s = .next { s with
        cmd := later, din := more, dout := s.dout ++ bytes ++ bytes, rsp := s.rsp ++ [answer, answer] }

/-- What SEG.ENC emits verifies: summing the pseudo-header and the emitted segment, checksum field filled, gives 0x0000, for every
payload on which the accumulator cannot wrap. -/
def Obligations.EmittedSegmentVerifies : Prop :=
  ∀ (s : State) (n : Nat) (src dst : Ipv4), s.fault = false → n ≤ s.din.length → n ≤ 131042 →
    resolve4 Config.v4MappedAccept s.srcAddr = some src → resolve4 Config.v4MappedAccept s.dstAddr = some dst →
    ∃ (t : State) (segment : List Byte), exec (.segEnc n) s = .next t ∧ t.dout = s.dout ++ segment ∧
      (Checksummer.fresh.add (pseudoHeader src dst n ++ segment)).finalize = 0x0000

/-- R217: CS commands never change the segment or address registers or DOUT, and no other command changes the CS unit. -/
def Obligations.UnitsDoNotDisturbEachOther : Prop :=
  ∀ (i : Instr) (s t : State), exec i s = .next t →
    (i = .csInit ∨ i = .csFin ∨ (∃ n, i = .csAdd n) →
      t.seg = s.seg ∧ t.srcAddr = s.srcAddr ∧ t.dstAddr = s.dstAddr ∧ t.dout = s.dout) ∧
    (i ≠ .csInit → i ≠ .csFin → (∀ n, i ≠ .csAdd n) → t.cs = s.cs ∧ t.phase = s.phase)

/-- What SEG.ENC emits and answers does not depend on the CS unit: with any other S0 to S3 it does the same. -/
def Obligations.EncodeIgnoresChecksumUnit : Prop :=
  ∀ (s t : State) (n : Nat) (c : Checksummer) (p : Phase), exec (.segEnc n) s = .next t →
    exec (.segEnc n) { s with cs := c, phase := p } = .next { t with cs := c, phase := p }

/-- The phase goes from OPEN to FINALIZED only by CS.FIN, and back only by CS.INIT. -/
def Obligations.PhaseMovesOnlyByInitAndFin : Prop :=
  ∀ s t : State, step s = .next t → s.phase ≠ t.phase →
    ∃ (w : Word) (rest : List Word), s.cmd = w :: rest ∧
      ((s.phase = .opened ∧ decode w = .command .csFin) ∨ (s.phase = .finalized ∧ decode w = .command .csInit))

/-- Every command but CS.ADD and CS.FIN has the same effect on the registers done twice, on the same DIN bytes, as done once. -/
def Obligations.RegisterEffectIsIdempotent : Prop :=
  ∀ (i : Instr) (s t u : State), (∀ n, i ≠ .csAdd n) → i ≠ .csFin →
    exec i s = .next t → exec i { t with din := s.din } = .next u → u.toRegisters = t.toRegisters

-- 30_encoding.md section 5 and 60_exceptions.md section 5: assembly text, instances

/-- Every command of an assembled program is well formed and its word decodes back to it; a form-L operand above 16,777,215 and a
form-I operand above 0xFFFFFFFF are assembly errors, and a program with a line in error has no words. What the tokens of a line
are, and what a number is, is the model's choice (log entry 9). -/
def Obligations.AssembledCommandsAreWellFormed : Prop :=
  (∀ (text : List Char) (program : List Item) (i : Instr),
    assemble text = .ok program → Item.command i ∈ program → i.WellFormed ∧ decode (encode i) = .command i) ∧
  (∀ (line operand : List Char) (r : OpcodeRow) (v : Nat),
    r ∈ opcodeTable → tokens line = [r.mnemonic.toList, operand] → readOperand operand = some v →
    (r.form = .l → v > 16777215 → assembleLine line = .error .lenTooLarge) ∧
    (r.form = .i → v > 0xFFFFFFFF → assembleLine line = .error .immTooLarge)) ∧
  (∀ (text line : List Char) (e : AsmError),
    line ∈ pieces (· = '\n') text → assembleLine line = .error e → ∃ e', assemble text = .error e')

/-- R79: the expansion of each pseudo-instruction. -/
def Obligations.PseudoInstructionsExpandAsListed : Prop :=
  (∀ bytes, (Pseudo.csAddB bytes).expand = [.command (.csAdd bytes.length), .din bytes]) ∧
  (∀ bytes, (Pseudo.checksum bytes).expand =
    .command .csInit :: (Pseudo.csAddB bytes).expand ++ [.command .csFin]) ∧
  (∀ a b c d, (Pseudo.addrSrc4 ⟨a, b, c, d⟩).expand = [.command (.addrSrc 4), .din [a, b, c, d]]) ∧
  (∀ a b c d, (Pseudo.addrDst4 ⟨a, b, c, d⟩).expand = [.command (.addrDst 4), .din [a, b, c, d]]) ∧
  (∀ bytes, (Pseudo.segEncB bytes).expand = [.command (.segEnc bytes.length), .din bytes]) ∧
  (∀ flags, ∃ v : BitVec 32, (Pseudo.segFlagset flags).expand = [.command (.segFlags v)] ∧
    v = flags.foldl (fun (acc : BitVec 32) (f : TcpFlag) => acc ||| (match f with
      | .fin => (0x001 : BitVec 32) | .syn => 0x002 | .rst => 0x004 | .psh => 0x008 | .ack => 0x010
      | .urg => 0x020 | .ece => 0x040 | .cwr => 0x080 | .ns => 0x100)) 0)

/-- Instances share nothing: an event of one leaves every other as it is and is an event of that one alone, and events of two of
them commute; each starts from its own reset, and the reset of one brings that one back to it (instances as a list whose events
come one at a time: log entry 11). -/
def Obligations.InstancesAreIndependent : Prop :=
  (∀ (b : Bank) (j k : Nat) (e f : Event), j ≠ k →
    (b.eventAt k e)[j]? = b[j]? ∧ (b.eventAt j e).eventAt k f = (b.eventAt k f).eventAt j e) ∧
  (∀ (b : Bank) (k : Nat) (e : Event) (x y : Session), b[k]? = some x → x.next e = .next y →
    (b.eventAt k e)[k]? = some y) ∧
  (∀ n k : Nat, k < n → ∃ x : Session, (Bank.start n)[k]? = some x ∧ x.block = State.reset) ∧
  (∀ (b : Bank) (k : Nat), k < b.length →
    ∃ x : Session, (b.eventAt k (.host .reset))[k]? = some x ∧ x.block = State.reset)
end

