-- ==== Sys2Proof/Laws/State.lean ====
section
/-! SUPPORT. The fields of a state after each named update: one lemma per field that changes, and one for the registers. -/

namespace Sys2Proof.Machine

variable (s : State) (st : RspStatus) (v : BitVec 32) (c : FaultCause) (opc : Byte) (bytes : List Byte) (nbits w : Nat)

@[simp] theorem respond_toRegisters : (respond st v s).toRegisters = s.toRegisters := rfl
@[simp] theorem respond_cmd : (respond st v s).cmd = s.cmd.tail := rfl
@[simp] theorem respond_din : (respond st v s).din = s.din := rfl
@[simp] theorem respond_dout : (respond st v s).dout = s.dout := rfl
@[simp] theorem respond_rsp : (respond st v s).rsp = s.rsp ++ [rspWord st v] := rfl

@[simp] theorem raiseFault_toRegisters :
    (raiseFault c opc s).toRegisters = { s.toRegisters with fault := true, faultCode := c.code } := rfl
@[simp] theorem raiseFault_cmd : (raiseFault c opc s).cmd = s.cmd.tail := rfl
@[simp] theorem raiseFault_din : (raiseFault c opc s).din = s.din := rfl
@[simp] theorem raiseFault_dout : (raiseFault c opc s).dout = s.dout := rfl
@[simp] theorem raiseFault_rsp :
    (raiseFault c opc s).rsp = s.rsp ++ [rspWord (.fault c) (zext32 opc)] := rfl

@[simp] theorem blocked_toRegisters : (blocked s).toRegisters = s.toRegisters := rfl
@[simp] theorem blocked_cmd : (blocked s).cmd = s.cmd.tail := rfl
@[simp] theorem blocked_din : (blocked s).din = s.din := rfl
@[simp] theorem blocked_dout : (blocked s).dout = s.dout := rfl
@[simp] theorem blocked_rsp : (blocked s).rsp = s.rsp ++ [rspWord .blocked 0] := rfl

@[simp] theorem emitDout_toRegisters : (emitDout bytes s).toRegisters = s.toRegisters := rfl
@[simp] theorem emitDout_cmd : (emitDout bytes s).cmd = s.cmd := rfl
@[simp] theorem emitDout_din : (emitDout bytes s).din = s.din := rfl
@[simp] theorem emitDout_dout : (emitDout bytes s).dout = s.dout ++ bytes := rfl
@[simp] theorem emitDout_rsp : (emitDout bytes s).rsp = s.rsp := rfl

@[simp] theorem withFetchWord_cmd : (s.withFetchWord nbits w).cmd = tableWord nbits w :: s.cmd := rfl
@[simp] theorem withFetchWord_toRegisters : (s.withFetchWord nbits w).toRegisters = s.toRegisters := rfl
@[simp] theorem withFetchWord_din : (s.withFetchWord nbits w).din = s.din := rfl
@[simp] theorem withFetchWord_dout : (s.withFetchWord nbits w).dout = s.dout := rfl
@[simp] theorem withFetchWord_rsp : (s.withFetchWord nbits w).rsp = s.rsp := rfl

end Sys2Proof.Machine
end

