-- ==== Sys2Proof/Laws/Checksum.lean ====
section
/-! SUPPORT. The data path of the Checksum Engine, byte by byte and chunk by chunk. -/

namespace Sys2Proof.Machine

namespace Checksummer

variable (a : Checksummer) (b : Byte) (xs ys : List Byte)

@[simp] theorem add_nil : a.add [] = a := rfl

@[simp] theorem add_cons : a.add (b :: xs) = (a.addByte b).add xs := rfl

/-- Two chunks add up to their concatenation (10_state.md R26). -/
theorem add_append : a.add (xs ++ ys) = (a.add xs).add ys := List.foldl_append ..

/-- Every byte turns the parity (R102). -/
theorem odd_addByte : (a.addByte b).odd = !a.odd := by
  have h : (a.totalBytesSeen + 1#32)[0] = !a.totalBytesSeen[0] := by
    simp [BitVec.getElem_add]
  unfold addByte
  split <;> simp [odd, h]

@[simp] theorem odd_fresh : fresh.odd = false := rfl

/-- A low byte waits (R102). -/
theorem addByte_of_even (h : a.odd = false) :
    a.addByte b = { a with pendingOddByte := b, totalBytesSeen := a.totalBytesSeen + 1 } := by
  simp [addByte, h]

/-- A high byte completes the pair (R102). -/
theorem addByte_of_odd (h : a.odd = true) :
    a.addByte b =
      { runningSum := a.runningSum + (zext32 a.pendingOddByte + zext32 b * 256)
        pendingOddByte := 0x00
        totalBytesSeen := a.totalBytesSeen + 1 } := by
  simp [addByte, h]

end Checksummer

end Sys2Proof.Machine
end

