-- ==== Sys2Proof/Laws/Decode.lean ====
section
/-! SUPPORT. The fields of an encoded word, and what the decoder reads from a word of given fields. -/

namespace Sys2Proof

variable (opc : Byte) (len : BitVec 24) (imm : BitVec 32) (w : Word)

/-- Each bit of a word is a bit of one of its fields (R70). -/
theorem getLsbD_wordOf (k : Nat) :
    (wordOf opc len imm).getLsbD k =
      if k < 32 then imm.getLsbD k
      else if k < 56 then len.getLsbD (k - 32)
      else opc.getLsbD (k - 56) := by
  change BitVec.getLsbD (w := 8 + 24 + 32) (opc ++ len ++ imm) k = _
  rw [BitVec.getLsbD_append, BitVec.getLsbD_append]
  have h : k - 32 - 24 = k - 56 := by omega
  by_cases h1 : k < 32 <;> by_cases h2 : k < 56 <;> simp [h1, h2, h] <;> omega

@[simp] theorem opcField_wordOf : opcField (wordOf opc len imm) = opc := by
  apply BitVec.eq_of_getLsbD_eq
  intro k hk
  simp [opcField, getLsbD_wordOf, hk]
  omega

@[simp] theorem lenField_wordOf : lenField (wordOf opc len imm) = len := by
  apply BitVec.eq_of_getLsbD_eq
  intro k hk
  simp [lenField, getLsbD_wordOf, hk]
  omega

@[simp] theorem immField_wordOf : immField (wordOf opc len imm) = imm := by
  apply BitVec.eq_of_getLsbD_eq
  intro k hk
  simp [immField, getLsbD_wordOf, hk]

/-- A word is its three fields. -/
theorem wordOf_fields : wordOf (opcField w) (lenField w) (immField w) = w := by
  apply BitVec.eq_of_getLsbD_eq
  intro k hk
  rw [getLsbD_wordOf]
  by_cases h1 : k < 32
  · simp [h1, immField]
  · by_cases h2 : k < 56
    · have h : k - 32 < 24 := by omega
      have e : 32 + (k - 32) = k := by omega
      simp [h1, h2, h, e, lenField]
    · have h : k - 56 < 8 := by omega
      have e : 56 + (k - 56) = k := by omega
      simp [h1, h2, h, e, opcField]

end Sys2Proof
end

