-- ==== Sys2Proof/Laws/Ops.lean ====
section
/-! SUPPORT. Once for each shared operation and each meaning: everything it can answer. -/

namespace Sys2Proof.Machine

variable {s t : State} {n : Nat}

theorem next_eq_next : (.next s : Result) = .next t ↔ t = s := by
  constructor
  · rintro ⟨⟩
    rfl
  · rintro rfl
    rfl

theorem takeDin_eq_some {bytes : List Byte} :
    takeDin n s = some (bytes, t) ↔
      n ≤ s.din.length ∧ bytes = s.din.take n ∧ t = { s with din := s.din.drop n } := by
  unfold takeDin
  split <;> rename_i h <;> simp [h, eq_comm]

theorem takeDin_eq_none : takeDin n s = none ↔ s.din.length < n := by simp [takeDin]

@[simp] theorem withDin_of_le {k : List Byte → State → State} (h : n ≤ s.din.length) :
    withDin n s k = .next (k (s.din.take n) { s with din := s.din.drop n }) := by
  simp [withDin, takeDin, h]

@[simp] theorem withDin_of_lt {k : List Byte → State → State} (h : s.din.length < n) :
    withDin n s k = .next s := by
  simp [withDin, takeDin, hold, Nat.not_le.mpr h]

/-- A command on DIN bytes runs on them or holds, and nothing else. -/
theorem withDin_next {k : List Byte → State → State} :
    withDin n s k = .next t ↔
      (n ≤ s.din.length ∧ t = k (s.din.take n) { s with din := s.din.drop n }) ∨
      (s.din.length < n ∧ t = s) := by
  rcases Nat.lt_or_ge s.din.length n with h | h
  · simp [h, Nat.not_le.mpr h, eq_comm]
  · simp [h, Nat.not_lt.mpr h, eq_comm]

/-- The check for the fault state: BLOCKED, or the command goes on. -/
theorem unlessBlocked_next {k : Result} :
    unlessBlocked s k = .next t ↔
      (s.fault = true ∧ t = blocked s) ∨ (s.fault = false ∧ k = .next t) := by
  unfold unlessBlocked
  cases s.fault <;> simp [eq_comm]

/-- The check for FINALIZED: a fault, or the command goes on. -/
theorem unlessFinalized_next {opc : Byte} {k : Result} :
    unlessFinalized opc s k = .next t ↔
      (s.phase = .finalized ∧ t = raiseFault .useAfterFinalize opc s) ∨ (s.phase = .opened ∧ k = .next t) := by
  unfold unlessFinalized
  cases s.phase <;> simp [eq_comm]

theorem execCsInit_next :
    execCsInit s = .next t ↔
      (s.fault = true ∧ t = blocked s) ∨
      (s.fault = false ∧ t = respond .ok 0 { s with cs := .fresh, phase := .opened }) := by
  rw [execCsInit, unlessBlocked_next, next_eq_next]

theorem execCsAdd_next :
    execCsAdd n s = .next t ↔
      (s.fault = true ∧ t = blocked s) ∨
      (s.fault = false ∧
        ((s.phase = .finalized ∧ t = raiseFault .useAfterFinalize 0x02 s) ∨
         (s.phase = .opened ∧
           ((n ≤ s.din.length ∧
              t = respond .ok 0 { s with cs := s.cs.add (s.din.take n), din := s.din.drop n }) ∨
            (s.din.length < n ∧ t = s))))) := by
  simp [execCsAdd, unlessBlocked_next, unlessFinalized_next, withDin_next, Instr.opc]

theorem execCsFin_next :
    execCsFin s = .next t ↔
      (s.fault = true ∧ t = blocked s) ∨
      (s.fault = false ∧
        ((s.phase = .finalized ∧ t = raiseFault .useAfterFinalize 0x03 s) ∨
         (s.phase = .opened ∧
           t = respond .ok (s.cs.finalize.setWidth 32) { s with phase := .finalized }))) := by
  rw [execCsFin, unlessBlocked_next, unlessFinalized_next, next_eq_next]
  rfl

/-- A field write, which is SEG.NEW and SEG.SPORT to SEG.URG. -/
theorem writeSegment_next {f : TcpSegment → TcpSegment} :
    writeSegment s f = .next t ↔
      (s.fault = true ∧ t = blocked s) ∨
      (s.fault = false ∧ t = respond .ok 0 { s with seg := f s.seg }) := by
  rw [writeSegment, unlessBlocked_next, next_eq_next]

theorem execAddrSrc_next :
    execAddrSrc n s = .next t ↔
      (s.fault = true ∧ t = blocked s) ∨
      (s.fault = false ∧
        ((n ≤ s.din.length ∧
           t = respond .ok 0 { s with srcAddr := AddrReg.ofBytes n (s.din.take n), din := s.din.drop n }) ∨
         (s.din.length < n ∧ t = s))) := by
  simp [execAddrSrc, unlessBlocked_next, withDin_next]

theorem execAddrDst_next :
    execAddrDst n s = .next t ↔
      (s.fault = true ∧ t = blocked s) ∨
      (s.fault = false ∧
        ((n ≤ s.din.length ∧
           t = respond .ok 0 { s with dstAddr := AddrReg.ofBytes n (s.din.take n), din := s.din.drop n }) ∨
         (s.din.length < n ∧ t = s))) := by
  simp [execAddrDst, unlessBlocked_next, withDin_next]

theorem execSegEnc_next :
    execSegEnc n s = .next t ↔
      (s.fault = true ∧ t = blocked s) ∨
      (s.fault = false ∧
        ((n ≤ s.din.length ∧ t = encodeOrReject n (s.din.take n) { s with din := s.din.drop n }) ∨
         (s.din.length < n ∧ t = s))) := by
  simp [execSegEnc, unlessBlocked_next, withDin_next]

/-- SEG.ENC with its payload taken: the segment and OK, or INVALID_ADDRESS. -/
theorem encodeOrReject_cases (n : Nat) (p : List Byte) (s : State) :
    (∃ src dst, resolve4 Config.v4MappedAccept s.srcAddr = some src ∧
      resolve4 Config.v4MappedAccept s.dstAddr = some dst ∧
      encodeOrReject n p s =
        respond .ok (BitVec.ofNat 32 (20 + n)) (emitDout (encodeSegment s.seg src dst n p) s)) ∨
    ((resolve4 Config.v4MappedAccept s.srcAddr = none ∨ resolve4 Config.v4MappedAccept s.dstAddr = none) ∧
      encodeOrReject n p s = respond .invalidAddress 0 s) := by
  unfold encodeOrReject
  cases resolve4 Config.v4MappedAccept s.srcAddr <;> cases resolve4 Config.v4MappedAccept s.dstAddr <;>
    simp [Config.headerLen]

/-- Everything a step can do: idle, BLOCKED, the fault of an illegal word, or the command's meaning. -/
theorem step_next :
    step s = .next t ↔
      (s.cmd = [] ∧ t = s) ∨
      (∃ w rest, s.cmd = w :: rest ∧
        ((s.fault = true ∧ t = blocked s) ∨
         (s.fault = false ∧ ∃ r, decode w = .illegal r ∧ t = raiseFault .illegalCommand (opcField w) s) ∨
         (s.fault = false ∧ ∃ i, decode w = .command i ∧ exec i s = .next t))) := by
  unfold step idle
  cases hc : s.cmd with
  | nil => simp [next_eq_next, -Host.Outcome.next.injEq]
  | cons w rest =>
    unfold execute
    cases hf : s.fault
    · cases hd : decode w <;> simp [hd, next_eq_next, -Host.Outcome.next.injEq]
    · simp [next_eq_next, -Host.Outcome.next.injEq]

end Sys2Proof.Machine
end

