-- ==== Sys2Proof/Laws/Exec.lean ====
section
/-! SUPPORT. What every command has in common: the four ways in which `exec` answers. -/

namespace Sys2Proof.Machine

variable {s t : State} {i : Instr}

@[simp] theorem needsOpen_iff (i : Instr) : i.NeedsOpen ↔ i = .csFin ∨ ∃ n, i = .csAdd n := Iff.rfl

/-- Whatever the command: BLOCKED, the fault of use after finalize, a hold, or its own effect with one response, which takes its
bytes from DIN and leaves STATUS as it was (60_exceptions.md R186). -/
theorem exec_cases (h : exec i s = .next t) :
    (s.fault = true ∧ t = blocked s) ∨
    (s.fault = false ∧
      ((i.NeedsOpen ∧ s.phase = .finalized ∧ t = raiseFault .useAfterFinalize i.opc s) ∨
       (¬ (i.NeedsOpen ∧ s.phase = .finalized) ∧
         ((s.din.length < i.len ∧ t = s) ∨
          (i.len ≤ s.din.length ∧ ∃ st v u, t = respond st v u ∧ u.cmd = s.cmd ∧ u.rsp = s.rsp ∧
            u.din = s.din.drop i.len ∧ u.fault = s.fault ∧ u.faultCode = s.faultCode))))) := by
  cases i with
  | csInit =>
    rcases execCsInit_next.mp h with h | ⟨hf, rfl⟩
    · exact .inl h
    · exact .inr ⟨hf, .inr ⟨by simp, .inr ⟨by simp [Instr.len], _, _, _, rfl, by simp [Instr.len]⟩⟩⟩
  | csAdd n =>
    rcases execCsAdd_next.mp h with h | ⟨hf, ⟨hp, rfl⟩ | ⟨hp, ⟨hl, rfl⟩ | ⟨hl, rfl⟩⟩⟩
    · exact .inl h
    · exact .inr ⟨hf, .inl ⟨by simp, hp, rfl⟩⟩
    · exact .inr ⟨hf, .inr ⟨by simp [hp], .inr ⟨hl, _, _, _, rfl, by simp [Instr.len]⟩⟩⟩
    · exact .inr ⟨hf, .inr ⟨by simp [hp], .inl ⟨hl, rfl⟩⟩⟩
  | csFin =>
    rcases execCsFin_next.mp h with h | ⟨hf, ⟨hp, rfl⟩ | ⟨hp, rfl⟩⟩
    · exact .inl h
    · exact .inr ⟨hf, .inl ⟨by simp, hp, rfl⟩⟩
    · exact .inr ⟨hf, .inr ⟨by simp [hp], .inr ⟨by simp [Instr.len], _, _, _, rfl, by simp [Instr.len]⟩⟩⟩
  | addrSrc n =>
    rcases execAddrSrc_next.mp h with h | ⟨hf, ⟨hl, rfl⟩ | ⟨hl, rfl⟩⟩
    · exact .inl h
    · exact .inr ⟨hf, .inr ⟨by simp, .inr ⟨hl, _, _, _, rfl, by simp [Instr.len]⟩⟩⟩
    · exact .inr ⟨hf, .inr ⟨by simp, .inl ⟨hl, rfl⟩⟩⟩
  | addrDst n =>
    rcases execAddrDst_next.mp h with h | ⟨hf, ⟨hl, rfl⟩ | ⟨hl, rfl⟩⟩
    · exact .inl h
    · exact .inr ⟨hf, .inr ⟨by simp, .inr ⟨hl, _, _, _, rfl, by simp [Instr.len]⟩⟩⟩
    · exact .inr ⟨hf, .inr ⟨by simp, .inl ⟨hl, rfl⟩⟩⟩
  | segEnc n =>
    rcases execSegEnc_next.mp h with h | ⟨hf, ⟨hl, rfl⟩ | ⟨hl, rfl⟩⟩
    · exact .inl h
    · refine .inr ⟨hf, .inr ⟨by simp, .inr ⟨hl, ?_⟩⟩⟩
      rcases encodeOrReject_cases n (s.din.take n) { s with din := s.din.drop n } with
        ⟨src, dst, _, _, he⟩ | ⟨_, he⟩
      · rw [he]; exact ⟨_, _, _, rfl, by simp [Instr.len]⟩
      · rw [he]; exact ⟨_, _, _, rfl, by simp [Instr.len]⟩
    · exact .inr ⟨hf, .inr ⟨by simp, .inl ⟨hl, rfl⟩⟩⟩
  | segNew | segSport | segDport | segSeq | segAck | segDoff | segFlags | segWin | segUrg =>
    simp only [exec, execSegNew, execSegSport, execSegDport, execSegSeq, execSegAck, execSegDoff, execSegFlags,
      execSegWin, execSegUrg] at h
    rcases writeSegment_next.mp h with h | ⟨hf, rfl⟩
    · exact .inl h
    · exact .inr ⟨hf, .inr ⟨by simp, .inr ⟨by simp [Instr.len], _, _, _, rfl, by simp [Instr.len]⟩⟩⟩

end Sys2Proof.Machine
end

