-- ==== Sys2Proof/Laws/PerInstr.lean ====
section
/-! SUPPORT. Facts about each command as syntax, one lemma per constructor. -/

namespace Sys2Proof.Laws.FieldsOfWord

/-- The word of a command carries its opcode, its byte count and its immediate (30_encoding.md R70). -/
def Statement (i : Instr) : Prop :=
  opcField (encode i) = i.opc ∧ lenField (encode i) = BitVec.ofNat 24 i.len ∧ immField (encode i) = i.imm

theorem of_encode (i : Instr) : Statement i := by simp [Statement, encode]

theorem csInit : Statement .csInit := of_encode _
theorem csAdd (n : Nat) : Statement (.csAdd n) := of_encode _
theorem csFin : Statement .csFin := of_encode _
theorem segNew : Statement .segNew := of_encode _
theorem segSport (imm : BitVec 32) : Statement (.segSport imm) := of_encode _
theorem segDport (imm : BitVec 32) : Statement (.segDport imm) := of_encode _
theorem segSeq (imm : BitVec 32) : Statement (.segSeq imm) := of_encode _
theorem segAck (imm : BitVec 32) : Statement (.segAck imm) := of_encode _
theorem segDoff (imm : BitVec 32) : Statement (.segDoff imm) := of_encode _
theorem segFlags (imm : BitVec 32) : Statement (.segFlags imm) := of_encode _
theorem segWin (imm : BitVec 32) : Statement (.segWin imm) := of_encode _
theorem segUrg (imm : BitVec 32) : Statement (.segUrg imm) := of_encode _
theorem addrSrc (n : Nat) : Statement (.addrSrc n) := of_encode _
theorem addrDst (n : Nat) : Statement (.addrDst n) := of_encode _
theorem segEnc (n : Nat) : Statement (.segEnc n) := of_encode _

end Sys2Proof.Laws.FieldsOfWord
end

