-- ==== Sys2Proof/Tests/Slice0.lean ====
section
/-! SUPPORT. The model's own tests, expected results from spec/95_test_vectors.md (the vector is named at each test) or from the
rules by hand, and the witnesses of the statements' hypotheses. -/

namespace Sys2Proof.Tests

open Sys2Proof Sys2Proof.Machine

/-- The state a step or a command answers. -/
def after (o : Host.Outcome State Fault Refusal) : Option State :=
  match o with
  | .next t => some t
  | .fault _ => none
  | .refused _ => none

/-- The reset state with one command word and some DIN bytes queued. -/
def queued (w : Word) (din : List Byte) : State := { State.reset with cmd := [w], din := din }

/-- 127.0.0.1 as an address register. -/
def loopback : AddrReg := AddrReg.ofBytes 4 [0x7f, 0x00, 0x00, 0x01]

/-- The segment of the header vector L1-6. -/
def synSegment : TcpSegment := { TcpSegment.fresh with sourcePort := 80, destPort := 8080, sequenceNumber := 1, flags := 0x002 }

/-- A state about to encode a segment. -/
def encoding (g : TcpSegment) (src dst : AddrReg) (n : BitVec 24) (din : List Byte) : State :=
  { queued (wordOf 0x30 n 0) din with seg := g, srcAddr := src, dstAddr := dst }

/-- A state in the fault state. -/
def faulted : State := { queued 0x0100000000000000 [0xab] with fault := true, faultCode := 0x81 }

-- WellFormed: the check that LEN can carry the byte count (R71, R78), at its edge

theorem test_csAdd_len_refused : ¬ (Instr.csAdd 16777216).WellFormed := by decide
theorem test_addrSrc_len_refused : ¬ (Instr.addrSrc 16777216).WellFormed := by decide
theorem test_addrDst_len_refused : ¬ (Instr.addrDst 16777216).WellFormed := by decide
theorem test_segEnc_len_refused : ¬ (Instr.segEnc 16777216).WellFormed := by decide
theorem test_largest_len_accepted : (Instr.csAdd 16777215).WellFormed := by decide

-- Decode: one word per row of R73, written out from its fields

theorem test_decode_csInit : decode 0b00000001_000000000000000000000000_00000000000000000000000000000000 = .command .csInit := by
  decide
theorem test_decode_csAdd : decode 0x0200002000000000 = .command (.csAdd 32) := by decide
theorem test_decode_csFin : decode 0x0300000000000000 = .command .csFin := by decide
theorem test_decode_segNew : decode 0x1000000000000000 = .command .segNew := by decide
theorem test_decode_segSport : decode 0x1100000000003039 = .command (.segSport 12345) := by decide
theorem test_decode_segDport : decode 0x1200000000001F90 = .command (.segDport 8080) := by decide
theorem test_decode_segSeq : decode 0x1300000001020304 = .command (.segSeq 0x01020304) := by decide
theorem test_decode_segAck : decode 0x14000000A0B0C0D0 = .command (.segAck 0xA0B0C0D0) := by decide
theorem test_decode_segDoff : decode 0x1500000000000025 = .command (.segDoff 0x25) := by decide
theorem test_decode_segFlags : decode 0x16000000FFFFFE02 = .command (.segFlags 0xFFFFFE02) := by decide
theorem test_decode_segWin : decode 0x170000000000FFFF = .command (.segWin 65535) := by decide
theorem test_decode_segUrg : decode 0x18000000FFFFFFFF = .command (.segUrg 0xFFFFFFFF) := by decide
theorem test_decode_addrSrc : decode 0x2000001100000000 = .command (.addrSrc 17) := by decide
theorem test_decode_addrDst : decode 0x2100000400000000 = .command (.addrDst 4) := by decide
theorem test_decode_segEnc : decode 0x3000000500000000 = .command (.segEnc 5) := by decide
/-- V-D1, V-D4, V-D8 to V-D10 and V-D7. -/
theorem test_decode_illegal :
    decode 0x0000000000000000 = .illegal .reservedOpcode ∧ decode 0x0200000500000001 = .illegal .formLImm ∧
    decode 0x1900000000000000 = .illegal .reservedOpcode ∧ decode 0x0400000000000000 = .illegal .reservedOpcode ∧
    decode 0x2200000000000000 = .illegal .reservedOpcode ∧ decode 0xFF00000000000000 = .illegal .reservedOpcode := by
  decide
theorem test_decodeTableWord : decodeTableWord 64 0x1100000000000050 = some (.segSport 80) := by decide
theorem test_withFetchWord_runs :
    (after (step (State.reset.withFetchWord 64 0x1100000000000050))).map (·.seg.sourcePort) = some 80 := by decide

-- Checksum Engine

/-- L1-5, its second row. -/
theorem test_csAdd_pairs_across_chunks :
    (after (step { queued 0x0200000100000000 [0x88] with cs := ⟨0, 0x55, 1⟩ })).map (fun t => (t.cs, t.din)) =
      some (⟨0x00008855, 0x00, 2⟩, []) := by decide
/-- The example of R102. -/
theorem test_csAdd_leaves_odd_byte :
    (after (step (queued 0x0200000300000000 [0x55, 0x88, 0x99]))).map (fun t => (t.cs, t.rsp)) =
      some (⟨0x00008855, 0x99, 3⟩, [0x0000000000000000]) := by decide
/-- L1-4. -/
theorem test_csFin_odd_trailing_byte :
    (after (step { queued 0x0300000000000000 [] with cs := ⟨0x00008855, 0x99, 3⟩ })).map (fun t => (t.rsp, t.phase)) =
      some ([0x0000000000007711], .finalized) := by decide
/-- V-CS5: a fold with a carry, and a result of 0x0000. -/
theorem test_csFin_folds_carry :
    (after (step { queued 0x0300000000000000 [] with cs := ⟨0x0001FFFE, 0x00, 4⟩ })).map (·.rsp) =
      some [0x0000000000000000] := by decide
/-- V-CS12: the trailing byte wraps the sum. -/
theorem test_csFin_wraps_with_trailing_byte :
    (Checksummer.finalize ⟨0xFFFFFFFF, 0xff, 131075⟩) = 0xFF01 := by decide
/-- V-CS16, its second command. -/
theorem test_csInit_reopens :
    (after (step { queued 0x0100000000000000 [] with cs := ⟨0x00008855, 0x99, 3⟩, phase := .finalized })).map
        (fun t => (t.cs, t.phase, t.rsp)) =
      some (⟨0, 0, 0⟩, .opened, [0x0000000000000000]) := by decide
set_option maxRecDepth 8192 in
/-- L1-7. -/
theorem test_pseudo_header_vector :
    (Checksummer.fresh.add
      ([0x7f, 0, 0, 1, 0x7f, 0, 0, 1, 0, 6, 0, 0x14] ++
       [0, 0x50, 0x1f, 0x90, 0, 0, 0, 1, 0, 0, 0, 0, 0x50, 2, 0, 0, 0, 0, 0, 0])).finalize = 0xFF91 := by decide

-- Segment fields (V-F1 to V-F11)

theorem test_segSport : (after (step (queued 0x1100000000012345 []))).map (·.seg.sourcePort) = some 0x2345 := by decide
theorem test_segDport : (after (step (queued 0x120000000001ABCD []))).map (·.seg.destPort) = some 0xABCD := by decide
theorem test_segSeq : (after (step (queued 0x13000000FFFFFFFF []))).map (·.seg.sequenceNumber) = some 0xFFFFFFFF := by decide
theorem test_segAck :
    (after (step (queued 0x14000000A0B0C0D0 []))).map (·.seg.acknowledgmentNumber) = some 0xA0B0C0D0 := by decide
theorem test_segDoff : (after (step (queued 0x1500000000000025 []))).map (·.seg.dataOffset) = some 0x5 := by decide
theorem test_segDoff_zero : (after (step (queued 0x1500000000000000 []))).map (·.seg.dataOffset) = some 0x0 := by decide
theorem test_segFlags : (after (step (queued 0x16000000FFFFFE02 []))).map (·.seg.flags) = some 0x002 := by decide
theorem test_segFlags_all : (after (step (queued 0x16000000000003FF []))).map (·.seg.flags) = some 0x1FF := by decide
theorem test_segWin : (after (step (queued 0x1700000000010000 []))).map (·.seg.windowSize) = some 0x0000 := by decide
theorem test_segUrg : (after (step (queued 0x180000000000FFFF []))).map (·.seg.urgentPointer) = some 0xFFFF := by decide
theorem test_segNew_keeps_addresses :
    (after (step { queued 0x1000000000000000 [] with seg := synSegment, srcAddr := loopback })).map
        (fun t => (t.seg, t.srcAddr)) = some (TcpSegment.fresh, loopback) := by decide

-- Addresses (V-A2, V-A5)

theorem test_addrSrc_short :
    (after (step (queued 0x2000000300000000 [0x7f, 0x00, 0x00]))).map (·.srcAddr) =
      some ⟨3, #v[0x7f, 0, 0, 0, 0, 0, 0, 0, 0, 0, 0, 0, 0, 0, 0, 0]⟩ := by decide
theorem test_addrSrc_long :
    (after (step (queued 0x2000001100000000 [1, 2, 3, 4, 5, 6, 7, 8, 9, 10, 11, 12, 13, 14, 15, 16, 17, 0xab]))).map
        (fun t => (t.srcAddr, t.din)) =
      some (⟨17, #v[1, 2, 3, 4, 5, 6, 7, 8, 9, 10, 11, 12, 13, 14, 15, 16]⟩, [0xab]) := by decide
theorem test_addrDst :
    (after (step (queued 0x2100000400000000 [10, 0, 0, 2]))).map (fun t => (t.dstAddr.len, t.dstAddr.bytes[3], t.srcAddr.len)) =
      some (4, 2, 0) := by decide

-- SEG.ENC

set_option maxRecDepth 8192 in
/-- L1-6, V-E1. -/
theorem test_segEnc_header :
    (after (step (encoding synSegment loopback loopback 0 []))).map (fun t => (t.rsp, t.dout)) =
      some ([0x0000000000000014],
        [0x00, 0x50, 0x1f, 0x90, 0, 0, 0, 1, 0, 0, 0, 0, 0x50, 0x02, 0, 0, 0x91, 0xff, 0, 0]) := by decide
set_option maxRecDepth 8192 in
/-- V-E10. -/
theorem test_segEnc_payload :
    (after (step (encoding ⟨12345, 80, 0x01020304, 0xA0B0C0D0, 5, 0x018, 65535, 0⟩ (AddrReg.ofBytes 4 [10, 0, 0, 1])
      (AddrReg.ofBytes 4 [10, 0, 0, 2]) 5 [0x68, 0x65, 0x6c, 0x6c, 0x6f]))).map (·.dout) =
      some [0x30, 0x39, 0x00, 0x50, 0x01, 0x02, 0x03, 0x04, 0xa0, 0xb0, 0xc0, 0xd0, 0x50, 0x18, 0xff, 0xff, 0xc1, 0xe2, 0, 0,
        0x68, 0x65, 0x6c, 0x6c, 0x6f] := by decide
set_option maxRecDepth 8192 in
/-- V-E6: NS in bit 0 of byte 12. -/
theorem test_encodeSegment_ns :
    encodeSegment { TcpSegment.fresh with sourcePort := 1, destPort := 2, flags := 0x100 } ⟨192, 168, 1, 1⟩ ⟨192, 168, 1, 2⟩ 0 [] =
      [0, 1, 0, 2, 0, 0, 0, 0, 0, 0, 0, 0, 0x51, 0, 0, 0, 0x2b, 0x8e, 0, 0] := by decide
/-- V-A4, V-X5: not IPv4, whatever the parameter is; the payload is consumed. -/
theorem test_segEnc_invalid_address :
    (after (step (encoding .fresh (AddrReg.ofBytes 16 [0x20, 0x01, 0x0d, 0xb8, 0, 0, 0, 0, 0, 0, 0, 0, 0, 0, 0, 1]) loopback 2
      [0xde, 0xad]))).map (fun t => (t.rsp, t.din, t.dout, t.fault)) =
      some ([0x0100000000000000], [], [], false) := by decide
/-- Section 2.6: the IPv4-mapped form resolves for one value of the parameter only. -/
theorem test_resolve4_mapped :
    let r := AddrReg.ofBytes 16 [0, 0, 0, 0, 0, 0, 0, 0, 0, 0, 0xff, 0xff, 0x7f, 0, 0, 1]
    resolve4 true r = some ⟨0x7f, 0, 0, 1⟩ ∧ resolve4 false r = none := by decide
/-- V-E15: the length field past 16 bits. -/
theorem test_pseudoHeader_length_truncates :
    pseudoHeader ⟨0, 0, 0, 0⟩ ⟨0, 0, 0, 0⟩ 65517 = [0, 0, 0, 0, 0, 0, 0, 0, 0, 6, 0x00, 0x01] := by decide

-- Faults

/-- V-D3: CS.FIN with a nonzero LEN is illegal. -/
theorem test_illegal_word_faults :
    (after (step (queued 0x0300000100000000 [0xab]))).map (fun t => (t.fault, t.faultCode, t.rsp, t.din, t.phase)) =
      some (true, 0x80, [0x8000000000000003], [0xab], .opened) := by decide
/-- V-X2, its second command; the STATUS value is that of P4. -/
theorem test_use_after_finalize_faults :
    (after (step { queued 0x0200000100000000 [0xab] with phase := .finalized })).map
        (fun t => (t.toRegisters.status, t.rsp, t.din)) =
      some (0x8103, [0x8100000000000002], [0xab]) := by decide
/-- V-X3: a word taken in the fault state is BLOCKED before it is decoded. -/
theorem test_fault_state_blocks :
    (after (step { faulted with cmd := [0x0000000000000000] })).map (fun t => (t.faultCode, t.rsp)) =
      some (0x81, [0xFF00000000000000]) := by decide
/-- V-D11: too few bytes, and the command is held. -/
theorem test_hold_changes_nothing :
    after (step (queued 0x02FFFFFF00000000 [0xab])) = some (queued 0x02FFFFFF00000000 [0xab]) := by decide

-- The host side and the assembler

theorem test_host_issue_and_step :
    (match (Session.start.host (.issue 0x0300000000000000)).next .block with
     | .next y => some (y.responses, y.issued)
     | .fault _ => none
     | .refused _ => none) = some ([0x000000000000FFFF], 1) := by decide
theorem test_assemble_command :
    assembleLine "SEG.ACK 0xA0B0C0D0 ; c".toList = .ok [.command (.segAck 0xA0B0C0D0)] := by decide
theorem test_assemble_flagset :
    assembleLine "SEG.FLAGSET PSH|ACK".toList = .ok [.command (.segFlags 0x018)] := by decide
theorem test_assemble_address :
    assembleLine "ADDR.SRC4 127.0.0.1".toList = .ok [.command (.addrSrc 4), .din [0x7f, 0, 0, 1]] := by decide
theorem test_assemble_din : assembleLine ".din 7f 00".toList = .ok [.din [0x7f, 0x00]] := by decide
theorem test_assemble_checksum :
    assembleLine "CHECKSUM ff".toList = .ok [.command .csInit, .command (.csAdd 1), .din [0xff], .command .csFin] := by decide
theorem test_assemble_len_refused : assembleLine "CS.ADD 16777216".toList = .error .lenTooLarge := by decide
theorem test_assemble_imm_refused : assembleLine "SEG.WIN 4294967296".toList = .error .immTooLarge := by decide
theorem test_assemble_operand_refused : assembleLine "CS.INIT 1".toList = .error .operandCount := by decide

-- Witnesses: states and operands that meet the hypotheses of a statement together

theorem witness_DecodeOfEncodeIsCommand : (Instr.segEnc 16777215).WellFormed := by decide
theorem witness_EncodeOfDecodeIsWord : decode 0x18000000FFFFFFFF = .command (.segUrg 0xFFFFFFFF) := by decide
theorem witness_WordDecodesToTheRowItFits :
    decode 0x0200000000000000 = .command (.csAdd 0) ∧ (⟨"CS.ADD", 0x02, .l⟩ : OpcodeRow) ∈ opcodeTable ∧
      (⟨"CS.ADD", 0x02, .l⟩ : OpcodeRow).Fits 0x0200000000000000 := by decide
theorem witness_IllegalWordsAreThoseListed :
    (queued 0x0300000100000000 []).cmd = 0x0300000100000000 :: [] ∧ (queued 0x0300000100000000 []).fault = false ∧
      decode 0x0300000100000000 = .illegal .formZField := by decide
theorem witness_StepRunsDecodedCommand :
    (queued 0x0300000000000000 []).cmd = 0x0300000000000000 :: [] ∧ (queued 0x0300000000000000 []).fault = false ∧
      decode 0x0300000000000000 = .command .csFin := by decide
theorem witness_IdleBlockKeepsItsState : State.reset.cmd = [] := rfl
theorem witness_FaultStateRejectsEveryCommand :
    faulted.cmd = 0x0100000000000000 :: [] ∧ faulted.fault = true ∧
      (∃ y, Session.next .block { Session.start with block := faulted } = .next y) ∧
      (∃ y, Session.next (.host (.supply [1])) { Session.start with block := faulted } = .next y) :=
  ⟨rfl, rfl, ⟨_, rfl⟩, ⟨_, rfl⟩⟩
theorem witness_FaultEntryIsPrecise :
    ∃ t, (queued 0x0000000000000000 []).fault = false ∧ step (queued 0x0000000000000000 []) = .next t ∧ t.fault = true :=
  ⟨_, rfl, rfl, rfl⟩
theorem witness_UseAfterFinalizeFaults :
    { State.reset with phase := .finalized }.fault = false ∧ { State.reset with phase := .finalized }.phase = .finalized :=
  ⟨rfl, rfl⟩
theorem witness_FaultsHaveExactlyTwoCauses_illegal :
    ∃ t, (queued 0x0000000000000000 []).cmd = [0x0000000000000000] ∧ (queued 0x0000000000000000 []).fault = false ∧
      step (queued 0x0000000000000000 []) = .next t ∧ t.fault = true :=
  ⟨_, rfl, rfl, rfl, rfl⟩
theorem witness_FaultsHaveExactlyTwoCauses_finalized :
    ∃ t, step { queued 0x0300000000000000 [] with phase := .finalized } = .next t ∧ t.fault = true ∧ t.faultCode = 0x81 :=
  ⟨_, rfl, rfl, rfl⟩
theorem witness_EachTakenCommandAnswersOnce :
    (∃ t, step (queued 0x0300000000000000 []) = .next t ∧ t.cmd = []) ∧
      (∃ t, step (queued 0x0000000000000000 []) = .next t ∧ t.cmd = []) ∧ (∃ t, step faulted = .next t ∧ t.cmd = []) ∧
      ∃ t, step (queued 0x3000000000000000 []) = .next t ∧ t.cmd = [] :=
  ⟨⟨_, rfl, rfl⟩, ⟨_, rfl, rfl⟩, ⟨_, rfl, rfl⟩, ⟨_, rfl, rfl⟩⟩
theorem witness_StepAndExecAlwaysAnswer : faulted.fault = true := rfl
theorem witness_StepTakesTheCommandUnlessHeld :
    (∃ t, step State.reset = .next t) ∧ (∃ t, step (queued 0x0300000000000000 []) = .next t) ∧
      ∃ t, step (queued 0x0200000200000000 [0xab]) = .next t :=
  ⟨⟨_, rfl⟩, ⟨_, rfl⟩, ⟨_, rfl⟩⟩
theorem csAdd_held : (queued 0x0200000200000000 [0xab]).Held :=
  ⟨_, [], .csAdd 2, rfl, rfl, by decide, (fun h => absurd h.2 (by decide)), by decide⟩
theorem witness_HeldCommandIsStuck :
    (queued 0x0200000200000000 [0xab]).Held ∧
      ({ Session.start with block := queued 0x0200000200000000 [0xab] } : Session).block = queued 0x0200000200000000 [0xab] :=
  ⟨csAdd_held, rfl⟩
theorem witness_HeldCommandProceedsWithBytes :
    (queued 0x0200000200000000 [0xab]).cmd = 0x0200000200000000 :: [] ∧ (queued 0x0200000200000000 [0xab]).Held ∧
      decode 0x0200000200000000 = .command (.csAdd 2) ∧
      (Instr.csAdd 2).len ≤ ((queued 0x0200000200000000 [0xab]).din ++ [0xcd]).length :=
  ⟨rfl, csAdd_held, by decide, by decide⟩
theorem witness_StreamsMoveByExactLengths :
    (∃ t, step (queued 0x0200000100000000 [0xab]) = .next t ∧ t.cmd = [] ∧ t.fault = false) ∧
      (∃ t, step { queued 0x0200000100000000 [0xab] with phase := .finalized } = .next t ∧ t.cmd = [] ∧ t.fault = true) ∧
      decode 0x0200000100000000 = .command (.csAdd 1) :=
  ⟨⟨_, rfl, rfl, rfl⟩, ⟨_, rfl, rfl, rfl⟩, by decide⟩
/-- A SEG.ENC that emits, for the last clause of StreamsMoveByExactLengths. -/
theorem witness_StreamsMoveByExactLengths_emits :
    let s := encoding synSegment loopback loopback 1 [0x01]
    ∃ w t emitted, s.cmd = [w] ∧ decode w = .command (.segEnc 1) ∧ step s = .next t ∧ t.cmd = [] ∧
      t.rsp = s.rsp ++ [BitVec.ofNat 64 (20 + 1)] ∧ t.dout = s.dout ++ emitted ∧ emitted.length = 20 + 1 :=
  ⟨_, _, _, rfl, by decide, rfl, rfl, by decide, rfl, by decide⟩
theorem witness_OutputsAreOnlyAppended :
    (∃ y, Session.next .block { Session.start with block := queued 0x0300000000000000 [] } = .next y) ∧
      Event.block ≠ .host .reset ∧
      (∃ y, Session.next (.host (.drainRsp 1)) Session.start = .next y) ∧ Event.host (.drainRsp 1) ≠ .host .reset :=
  ⟨⟨_, rfl⟩, by decide, ⟨_, rfl⟩, by decide⟩
/-- A state no reset leaves: a byte pending, an address stored, the fault state. -/
def busy : State :=
  { queued 0x0200000100000000 [0xab] with
    cs := ⟨0x00003412, 0x56, 3⟩, srcAddr := loopback, fault := true, faultCode := 0x81 }
theorem witness_RegisterInvariantIsKept : busy.toRegisters.Inv ∧ ∃ t, step busy = .next t := by
  refine ⟨⟨?_, ?_, ?_, ?_⟩, _, rfl⟩
  · unfold Checksummer.Settled; decide
  · unfold AddrReg.Padded; decide
  · unfold AddrReg.Padded; decide
  · unfold Registers.StatusLegal; decide
theorem witness_IssuedCommandsAreAccounted :
    let x : Session := ⟨queued 0x0300000000000000 [], 2, [0x0000000000000000], []⟩
    x.issued = x.responses.length + x.block.cmd.length ∧ ∃ y, x.next .block = .next y :=
  ⟨rfl, _, rfl⟩
theorem witness_FirstCommandAfterResetRuns : decode 0x1000000000000000 = .command .segNew := by decide
/-- Not in the fault state, in OPEN, with bytes on DIN: meets the hypotheses of CsInitStartsFresh, SegNewGivesDefaults,
PortWritesKeepLowBits, NumberWritesKeepAllBits, OffsetAndFlagWritesKeepLowBits and WindowAndUrgentWritesKeepLowBits. -/
theorem witness_CommandsComplete :
    (queued 0x0200000200000000 [0xab, 0xcd]).fault = false ∧ (queued 0x0200000200000000 [0xab, 0xcd]).phase = .opened ∧
      2 ≤ (queued 0x0200000200000000 [0xab, 0xcd]).din.length ∧ 2 ≤ 16777215 := by decide
/-- The last clause of CsInitStartsFresh: a step that leaves FINALIZED. -/
theorem witness_CsInitStartsFresh :
    ∃ t, step { queued 0x0100000000000000 [] with phase := .finalized } = .next t ∧ t.phase = .opened :=
  ⟨_, rfl, by decide⟩
theorem witness_CsAddAppendsItsChunk :
    (State.reset.fault = false ∧ State.reset.phase = .opened ∧ 0 ≤ State.reset.din.length) ∧
      ({ State.reset with phase := .finalized }.fault = false ∧ { State.reset with phase := .finalized }.phase = .finalized) ∧
      (⟨0, 0x55, 1⟩ : Checksummer).totalBytesSeen.getLsbD 0 = true ∧
      Checksummer.fresh.totalBytesSeen.getLsbD 0 = false := by decide
theorem witness_CsFinAnswersTheChecksum :
    (State.reset.fault = false ∧ State.reset.phase = .opened) ∧
      ({ State.reset with phase := .finalized }.fault = false ∧ { State.reset with phase := .finalized }.phase = .finalized) := by
  decide
theorem witness_FoldIsTheLoop : 1 ≤ (0xFFFFFFFF : BitVec 32).toNat := by decide
theorem witness_ChunkedRunAnswersClosedForm :
    let s : State := { State.reset with
      cmd := encode .csInit :: ([[0x12], [0x34, 0x56], [], [0x78]].map fun c : List Byte => encode (.csAdd c.length)) ++
        encode .csFin :: [0x1000000000000000]
      din := [[0x12], [0x34, 0x56], [], [0x78]].flatten ++ [0xab] }
    s.fault = false ∧ (∀ c ∈ ([[0x12], [0x34, 0x56], [], [0x78]] : List (List Byte)), c.length ≤ 16777215) :=
  ⟨rfl, by decide⟩
theorem witness_ChunkingDoesNotMatter :
    State.reset.fault = false ∧ (∀ c ∈ ([[0x55], [0x88, 0x99]] : List (List Byte)), c.length ≤ 16777215) ∧
      ([[0x55], [0x88, 0x99]] : List (List Byte)).flatten.length ≤ 16777215 := by decide
theorem witness_AccumulatorWrapsOnlyPastBound : ([0x55, 0x88, 0x99] : List Byte).length ≤ 131074 := by decide
/-- The longest stream of WireChecksumIsStandard. -/
theorem witness_WireChecksumIsStandard : (List.replicate 131074 (0xff : Byte)).length = 131074 := List.length_replicate ..
theorem witness_SegmentCommandsKeepTheRest :
    (∃ t, exec (.segWin 7) State.reset = .next t) ∧ (∃ t, exec (.addrSrc 0) State.reset = .next t) ∧
      ∃ t, exec (.addrDst 1) State.reset = .next t :=
  ⟨⟨_, rfl⟩, ⟨_, rfl⟩, ⟨_, rfl⟩⟩
theorem witness_AddressWritesKeepSixteenBytes :
    (queued 0x2000000400000000 [0x7f, 0, 0, 1]).fault = false ∧ 4 ≤ 16777215 ∧
      4 ≤ (queued 0x2000000400000000 [0x7f, 0, 0, 1]).din.length := by decide
theorem witness_AddressesResolveAsListed :
    loopback.len.toNat = 4 ∧
      (let r := AddrReg.ofBytes 16 [0, 0, 0, 0, 0, 0, 0, 0, 0, 0, 0xff, 0xff, 0x7f, 0, 0, 1]
       r.len.toNat = 16 ∧ (∀ k : Fin 16, k.val < 10 → r.bytes[k] = 0x00) ∧ r.bytes[10] = 0xff ∧ r.bytes[11] = 0xff) ∧
      ((AddrReg.ofBytes 3 [1, 2, 3]).len.toNat ≠ 4 ∧ (AddrReg.ofBytes 3 [1, 2, 3]).len.toNat ≠ 16) ∧
      (let r := AddrReg.ofBytes 16 [0x20, 0x01, 0x0d, 0xb8, 0, 0, 0, 0, 0, 0, 0, 0, 0, 0, 0, 1]
       r.len.toNat = 16 ∧ (∃ k : Fin 16, k.val < 10 ∧ r.bytes[k] ≠ 0x00) ∧ r.bytes[10] ≠ 0xff ∧ r.bytes[11] ≠ 0xff) := by
  decide
theorem witness_FlagsArePackedAsListed :
    (header synSegment)[12]? = some 0x50 ∧ (header synSegment)[13]? = some 0x02 := by decide
theorem witness_InjectorWritesLowByteFirst : 18 ≤ (header synSegment).length := by decide
/-- The longest payload of EmittedSegmentVerifies. -/
theorem witness_EmittedSegmentVerifies :
    let s := encoding synSegment loopback loopback 131042 (List.replicate 131042 0xff)
    s.fault = false ∧ 131042 ≤ s.din.length ∧
      resolve4 Config.v4MappedAccept s.srcAddr = some ⟨0x7f, 0, 0, 1⟩ ∧
      resolve4 Config.v4MappedAccept s.dstAddr = some ⟨0x7f, 0, 0, 1⟩ :=
  ⟨rfl, Nat.le_of_eq (List.length_replicate ..).symm, by decide, by decide⟩
/-- Both addresses valid, for SegEncEmitsTheSegment, OutputIsHeaderThenPayload and EmittedSegmentVerifies. -/
theorem witness_SegEncEmitsTheSegment_valid :
    let s := encoding synSegment loopback loopback 1 [0x01]
    s.fault = false ∧ 1 ≤ s.din.length ∧ 1 ≤ 131042 ∧
      resolve4 Config.v4MappedAccept s.srcAddr = some ⟨0x7f, 0, 0, 1⟩ ∧
      resolve4 Config.v4MappedAccept s.dstAddr = some ⟨0x7f, 0, 0, 1⟩ := by decide
/-- One address invalid, for SegEncEmitsTheSegment and InvalidAddressIsNoFault. -/
theorem witness_SegEncEmitsTheSegment_invalid :
    let s := encoding synSegment .empty loopback 1 [0x01]
    s.fault = false ∧ 1 ≤ s.din.length ∧ resolve4 Config.v4MappedAccept s.srcAddr = none := by decide
theorem witness_OutputIsHeaderThenPayload :
    let s := encoding synSegment loopback loopback 1 [0x01]
    s.fault = false ∧ 1 ≤ s.din.length ∧ (∃ t, exec (.segEnc 1) s = .next t) ∧
      (resolve4 Config.v4MappedAccept s.srcAddr).isSome ∧ (resolve4 Config.v4MappedAccept s.dstAddr).isSome :=
  ⟨rfl, by decide, ⟨_, rfl⟩, by decide, by decide⟩
theorem witness_SegEncWritesNoRegister : ∃ t, exec (.segEnc 1) (encoding synSegment loopback loopback 1 [0x01]) = .next t :=
  ⟨_, rfl⟩
theorem witness_RepeatedEncodeIsIdentical :
    let s : State := { encoding synSegment loopback loopback 1 [0x01, 0x01, 0xab] with
      cmd := [encode (.segEnc 1), encode (.segEnc 1), encode .csFin] }
    s.fault = false ∧ ([0x01] : List Byte).length ≤ 16777215 ∧
      s.cmd = encode (.segEnc ([0x01] : List Byte).length) :: encode (.segEnc ([0x01] : List Byte).length) :: [encode .csFin] ∧
      s.din = [0x01] ++ [0x01] ++ [0xab] :=
  ⟨rfl, by decide, rfl, rfl⟩
theorem witness_UnitsDoNotDisturbEachOther :
    (∃ t, exec (.csAdd 1) (queued 0x0200000100000000 [0xab]) = .next t) ∧
      ∃ t, exec (.segEnc 1) (encoding synSegment loopback loopback 1 [0x01]) = .next t :=
  ⟨⟨_, rfl⟩, ⟨_, rfl⟩⟩
theorem witness_PhaseMovesOnlyByInitAndFin :
    (∃ t, step (queued 0x0300000000000000 []) = .next t ∧ (queued 0x0300000000000000 []).phase ≠ t.phase) ∧
      ∃ t, step { queued 0x0100000000000000 [] with phase := .finalized } = .next t ∧ Phase.finalized ≠ t.phase :=
  ⟨⟨_, rfl, by decide⟩, ⟨_, rfl, by decide⟩⟩
theorem witness_RegisterEffectIsIdempotent :
    let s := queued 0x2000000400000000 [0x7f, 0, 0, 1]
    ∃ t u, (∀ n, Instr.addrSrc 4 ≠ .csAdd n) ∧ Instr.addrSrc 4 ≠ .csFin ∧
      exec (.addrSrc 4) s = .next t ∧ exec (.addrSrc 4) { t with din := s.din } = .next u :=
  ⟨_, _, (fun _ => Instr.noConfusion), Instr.noConfusion, rfl, rfl⟩
theorem witness_AssembledCommandsAreWellFormed :
    assemble "CS.ADD 3".toList = .ok [.command (.csAdd 3)] ∧ Item.command (.csAdd 3) ∈ [Item.command (.csAdd 3)] := by decide
/-- Operands one above the largest, and lines in error. -/
theorem witness_AssembledCommandsAreWellFormed_errors :
    (tokens "CS.ADD 16777216".toList = ["CS.ADD".toList, "16777216".toList] ∧
      readOperand "16777216".toList = some 16777216 ∧ ∃ r ∈ opcodeTable, r.mnemonic.toList = "CS.ADD".toList ∧ r.form = .l) ∧
    (tokens "SEG.SEQ 0x100000000".toList = ["SEG.SEQ".toList, "0x100000000".toList] ∧
      readOperand "0x100000000".toList = some 0x100000000 ∧
      ∃ r ∈ opcodeTable, r.mnemonic.toList = "SEG.SEQ".toList ∧ r.form = .i) ∧
    ("CS.FIN 1".toList ∈ pieces (· = '\n') "CS.INIT\nCS.FIN 1".toList ∧
      assembleLine "CS.FIN 1".toList = .error .operandCount) := by decide
/-- A line without a token assembles to nothing (log entry 9). -/
theorem test_assemble_empty_line : assemble "CS.INIT ; start\n\n; done".toList = .ok [.command .csInit] := by decide
theorem witness_InstancesAreIndependent :
    (0 : Nat) ≠ 1 ∧ 1 < 2 ∧ (Bank.start 2)[1]? = some Session.start ∧ 1 < (Bank.start 2).length ∧
      ∃ y, Session.start.next (.host (.issue 0x0100000000000000)) = .next y := ⟨by decide, by decide, rfl, by decide, _, rfl⟩

end Sys2Proof.Tests
end

section
/-! SUPPORT. 30_encoding.md: which words the opcode map covers (R73, R74), the fields of a decoded command (R70, R80), and the
obligation about illegal words. -/

namespace Sys2Proof

variable {o : Byte} {n : Nat} {v : BitVec 32} {w : Word} {i : Instr}

/-- The form-Z opcodes (R73). -/
theorem isSome_formZ_iff : (formZ o).isSome ↔ o.toNat = 0x01 ∨ o.toNat = 0x03 ∨ o.toNat = 0x10 := by
  simp only [formZ, BitVec.toNat_eq]
  split_ifs <;> simp_all

/-- The form-L opcodes (R73). -/
theorem isSome_formL_iff :
    (formL o n).isSome ↔ o.toNat = 0x02 ∨ o.toNat = 0x20 ∨ o.toNat = 0x21 ∨ o.toNat = 0x30 := by
  simp only [formL, BitVec.toNat_eq]
  split_ifs <;> simp_all

/-- The form-I opcodes (R73). -/
theorem isSome_formI_iff : (formI o v).isSome ↔ 0x11 ≤ o.toNat ∧ o.toNat ≤ 0x18 := by
  simp only [formI, BitVec.toNat_eq]
  split_ifs <;> simp_all
  omega

/-- A form-Z command has its row's opcode, and neither field. -/
theorem fields_of_formZ (h : formZ o = some i) : i.opc = o ∧ i.len = 0 ∧ i.imm = 0 := by
  unfold formZ at h
  split_ifs at h <;> cases h <;> simp_all [Instr.opc, Instr.len, Instr.imm]

/-- A form-L command has its row's opcode and the byte count, and no immediate. -/
theorem fields_of_formL (h : formL o n = some i) : i.opc = o ∧ i.len = n ∧ i.imm = 0 := by
  unfold formL at h
  split_ifs at h <;> cases h <;> simp_all [Instr.opc, Instr.len, Instr.imm]

/-- A form-I command has its row's opcode and the immediate, and no byte count. -/
theorem fields_of_formI (h : formI o v = some i) : i.opc = o ∧ i.len = 0 ∧ i.imm = v := by
  unfold formI at h
  split_ifs at h <;> cases h <;> simp_all [Instr.opc, Instr.len, Instr.imm]

/-- The decoder drops nothing of a legal word: its three fields are those of the command (R70, R80). -/
theorem fields_of_decode (h : decode w = .command i) :
    i.opc = opcField w ∧ i.len = (lenField w).toNat ∧ i.imm = immField w := by
  unfold decode at h
  split at h
  next c hz =>
    split_ifs at h with hf
    cases h
    obtain ⟨hlen, himm⟩ := hf
    simpa [hlen, himm] using fields_of_formZ hz
  next =>
    split at h
    next c hl =>
      split_ifs at h with himm
      cases h
      simpa [himm] using fields_of_formL hl
    next =>
      split at h
      next c hi =>
        split_ifs at h with hlen
        cases h
        simpa [hlen] using fields_of_formI hi
      next => cases h

/-- A check of R80 refuses the word exactly where it fails. -/
theorem exists_ite_eq_illegal {p : Prop} [Decidable p] {r : Illegal} :
    (∃ r', (if p then Decoded.command i else .illegal r) = .illegal r') ↔ ¬ p := by
  split_ifs with h <;> simp [h]

/-- The illegal words by the form of their opcode: a form with a reserved field that is not zero (R74 (b) to (d)), or no form
(R74 (a)). -/
theorem decode_illegal_iff :
    (∃ r, decode w = .illegal r) ↔
      if (formZ (opcField w)).isSome then ¬ (lenField w = 0 ∧ immField w = 0)
      else if (formL (opcField w) (lenField w).toNat).isSome then immField w ≠ 0
      else if (formI (opcField w) (immField w)).isSome then lenField w ≠ 0
      else True := by
  unfold decode
  cases formZ (opcField w) with
  | some c => exact exists_ite_eq_illegal
  | none =>
    cases formL (opcField w) (lenField w).toNat with
    | some c => exact exists_ite_eq_illegal
    | none =>
      cases formI (opcField w) (immField w) with
      | some c => exact exists_ite_eq_illegal
      | none => simp

/-- The 56 bits below the opcode are `LEN` and `IMM` (R70). -/
theorem extractLsb'_56_eq_zero_iff : w.extractLsb' 0 56 = 0 ↔ lenField w = 0 ∧ immField w = 0 := by
  have hsplit : w.extractLsb' 0 56 = lenField w ++ immField w :=
    (BitVec.extractLsb'_append_extractLsb'_eq_extractLsb' (start₁ := 0) (len₁ := 32) rfl).symm
  rw [hsplit]
  constructor
  · intro h
    have hlen := congrArg (BitVec.extractLsb' 32 24) h
    have himm := congrArg (BitVec.extractLsb' 0 32) h
    rw [BitVec.extractLsb'_append_eq_left] at hlen
    rw [BitVec.extractLsb'_append_eq_right] at himm
    exact ⟨hlen, himm⟩
  · rintro ⟨hlen, himm⟩
    rw [hlen, himm]
    rfl

/-- The illegal words in the numbers of R74: the ranges of (a), then (b) to (d). -/
theorem decode_illegal_iff_listed :
    (∃ r, decode w = .illegal r) ↔
      (let o := (opcField w).toNat
       o = 0x00 ∨ (0x04 ≤ o ∧ o ≤ 0x0F) ∨ (0x19 ≤ o ∧ o ≤ 0x1F) ∨ (0x22 ≤ o ∧ o ≤ 0x2F) ∨ (0x31 ≤ o ∧ o ≤ 0xFF) ∨
       ((o = 0x01 ∨ o = 0x03 ∨ o = 0x10) ∧ w.extractLsb' 0 56 ≠ 0) ∨
       ((o = 0x02 ∨ o = 0x20 ∨ o = 0x21 ∨ o = 0x30) ∧ immField w ≠ 0) ∨
       ((0x11 ≤ o ∧ o ≤ 0x18) ∧ lenField w ≠ 0)) := by
  rw [decode_illegal_iff]
  split_ifs with hz hl hi
  · rw [isSome_formZ_iff] at hz
    rw [← extractLsb'_56_eq_zero_iff]
    grind
  · rw [isSome_formL_iff] at hl
    grind
  · rw [isSome_formI_iff] at hi
    grind
  · rw [isSome_formZ_iff] at hz
    rw [isSome_formL_iff] at hl
    rw [isSome_formI_iff] at hi
    have hlt := (opcField w).isLt
    grind

end Sys2Proof

namespace Sys2Proof.Machine

/-- Settles O4: the form of the opcode decides which field is reserved, and the fault is the illegal branch of a step. -/
theorem illegalWordsAreThoseListed : Obligations.IllegalWordsAreThoseListed := by
  refine ⟨fun w => ?_, fun w => ?_, fun s w rest r hcmd hfault hdec => ?_⟩
  · exact decode_illegal_iff_listed
  · cases decode w with
    | command i => exact .inl ⟨i, rfl⟩
    | illegal r => exact .inr ⟨r, rfl⟩
  · have hstep : step s = .next (raiseFault .illegalCommand (opcField w) s) :=
      step_next.mpr (.inr ⟨w, rest, hcmd, .inr (.inl ⟨hfault, r, hdec, rfl⟩)⟩)
    rw [hstep, raiseFault, respond, hcmd]
    rfl

end Sys2Proof.Machine
end

section
/-! SUPPORT. 30_encoding.md R76: the response of each command, and the obligation about it. -/

namespace Sys2Proof.Machine

variable {s t : State} {i : Instr}

/-- The VALUE of a response OK (R76). -/
def okValue (s : State) : Instr → BitVec 32
  | .csFin => s.cs.finalize.setWidth 32
  | .segEnc n => BitVec.ofNat 32 (20 + n)
  | _ => 0

/-- What a command may answer in a state: the rows of R76, but for an illegal word. -/
def Answer (s : State) (i : Instr) : RspStatus → BitVec 32 → Prop
  | .ok, v => v = okValue s i
  | .invalidAddress, v => (∃ n, i = .segEnc n) ∧ v = 0
  | .fault c, v => c = .useAfterFinalize ∧ v = zext32 i.opc
  | .blocked, v => s.fault = true ∧ v = 0

/-- A command is held, or appends one response that R76 allows it. -/
theorem exec_answers (h : exec i s = .next t) :
    t = s ∨ ∃ st v, t.rsp = s.rsp ++ [rspWord st v] ∧ Answer s i st v := by
  cases i with
  | csInit =>
    rcases execCsInit_next.mp h with ⟨hf, rfl⟩ | ⟨-, rfl⟩
    · exact .inr ⟨_, _, rfl, hf, rfl⟩
    · exact .inr ⟨_, _, rfl, rfl⟩
  | csAdd n =>
    rcases execCsAdd_next.mp h with ⟨hf, rfl⟩ | ⟨-, ⟨-, rfl⟩ | ⟨-, ⟨-, rfl⟩ | ⟨-, rfl⟩⟩⟩
    · exact .inr ⟨_, _, rfl, hf, rfl⟩
    · exact .inr ⟨_, _, rfl, rfl, rfl⟩
    · exact .inr ⟨_, _, rfl, rfl⟩
    · exact .inl rfl
  | csFin =>
    rcases execCsFin_next.mp h with ⟨hf, rfl⟩ | ⟨-, ⟨-, rfl⟩ | ⟨-, rfl⟩⟩
    · exact .inr ⟨_, _, rfl, hf, rfl⟩
    · exact .inr ⟨_, _, rfl, rfl, rfl⟩
    · exact .inr ⟨_, _, rfl, rfl⟩
  | addrSrc n =>
    rcases execAddrSrc_next.mp h with ⟨hf, rfl⟩ | ⟨-, ⟨-, rfl⟩ | ⟨-, rfl⟩⟩
    · exact .inr ⟨_, _, rfl, hf, rfl⟩
    · exact .inr ⟨_, _, rfl, rfl⟩
    · exact .inl rfl
  | addrDst n =>
    rcases execAddrDst_next.mp h with ⟨hf, rfl⟩ | ⟨-, ⟨-, rfl⟩ | ⟨-, rfl⟩⟩
    · exact .inr ⟨_, _, rfl, hf, rfl⟩
    · exact .inr ⟨_, _, rfl, rfl⟩
    · exact .inl rfl
  | segEnc n =>
    rcases execSegEnc_next.mp h with ⟨hf, rfl⟩ | ⟨-, ⟨-, rfl⟩ | ⟨-, rfl⟩⟩
    · exact .inr ⟨_, _, rfl, hf, rfl⟩
    · rcases encodeOrReject_cases n (s.din.take n) { s with din := s.din.drop n } with
        ⟨src, dst, -, -, he⟩ | ⟨-, he⟩
      · exact .inr ⟨.ok, _, by rw [he]; rfl, rfl⟩
      · exact .inr ⟨.invalidAddress, _, by rw [he]; rfl, ⟨n, rfl⟩, rfl⟩
    · exact .inl rfl
  | segNew | segSport | segDport | segSeq | segAck | segDoff | segFlags | segWin | segUrg =>
    simp only [exec, execSegNew, execSegSport, execSegDport, execSegSeq, execSegAck, execSegDoff, execSegFlags,
      execSegWin, execSegUrg] at h
    rcases writeSegment_next.mp h with ⟨hf, rfl⟩ | ⟨-, rfl⟩
    · exact .inr ⟨_, _, rfl, hf, rfl⟩
    · exact .inr ⟨_, _, rfl, rfl⟩

/-- Settles O13: BLOCKED and the illegal word answer by their own branch of a step, a command by `exec_answers`; a held command
is still in CMD. -/
theorem eachTakenCommandAnswersOnce : Obligations.EachTakenCommandAnswersOnce := by
  intro s t w rest hcmd hstep htaken
  rcases step_next.mp hstep with ⟨hnil, -⟩ | ⟨w', rest', hcmd', hcases⟩
  · simp [hcmd] at hnil
  obtain ⟨rfl, rfl⟩ : w = w' ∧ rest = rest' := by simpa [hcmd] using hcmd'
  rcases hcases with ⟨hf, rfl⟩ | ⟨-, r, -, rfl⟩ | ⟨-, i, hdec, hexec⟩
  · exact ⟨0xFF, 0, rfl, by simp [hf]⟩
  · exact ⟨0x80, _, rfl, by simp [zext32, opcField]⟩
  rcases exec_answers hexec with rfl | ⟨st, v, hrsp, hans⟩
  · simp [hcmd] at htaken
  obtain ⟨hopc, hlen, -⟩ := fields_of_decode hdec
  refine ⟨st.code, v, hrsp, ?_⟩
  cases st with
  | ok =>
    obtain rfl := hans
    cases i with
    | csFin => exact .inl ⟨rfl, hdec, rfl⟩
    | segEnc n =>
      have hn : (BitVec.ofNat 32 (20 + n)).toNat = 20 + n := by
        have := (lenField w).isLt
        simp only [Instr.len] at hlen
        simp only [BitVec.toNat_ofNat]
        omega
      exact .inr (.inl ⟨rfl, n, hdec, hn⟩)
    | _ => exact .inr (.inr (.inl ⟨rfl, by simp [hdec], by simp [hdec], ⟨_, hdec⟩, rfl⟩))
  | invalidAddress =>
    obtain ⟨⟨n, rfl⟩, rfl⟩ := hans
    exact .inr (.inr (.inr (.inl ⟨rfl, ⟨n, hdec⟩, rfl⟩)))
  | fault c =>
    obtain ⟨rfl, rfl⟩ := hans
    exact .inr (.inr (.inr (.inr (.inl ⟨.inr rfl, congrArg zext32 hopc⟩))))
  | blocked =>
    obtain ⟨hf, rfl⟩ := hans
    exact .inr (.inr (.inr (.inr (.inr ⟨rfl, hf, rfl⟩))))

end Sys2Proof.Machine
end

section
/-! SUPPORT. 30_encoding.md R79: the obligation about the pseudo-instructions. -/

namespace Sys2Proof.Machine

/-- Settles O59: each expansion is the definition's; the OR of the flags in 32 bits is the OR in the nine bits of `flags`,
widened, since widening passes through every `|||`. -/
theorem pseudoInstructionsExpandAsListed : Obligations.PseudoInstructionsExpandAsListed := by
  refine ⟨fun _ => rfl, fun _ => rfl, fun _ _ _ _ => rfl, fun _ _ _ _ => rfl, fun _ => rfl, fun flags => ⟨_, rfl, ?_⟩⟩
  refine (List.foldl_hom (BitVec.setWidth 32) fun acc f => ?_).symm
  rw [BitVec.setWidth_or]
  cases f <;> rfl

end Sys2Proof.Machine
end

section
/-! SUPPORT. 40_checksum.md R101: which commands move the phase of the CS unit, and the obligation about CS.INIT. -/

namespace Sys2Proof

/-- A legal word is the encoding of its command (R70, R80). -/
theorem encode_of_decode {w : Word} {i : Instr} (h : decode w = .command i) : encode i = w := by
  obtain ⟨hopc, hlen, himm⟩ := fields_of_decode h
  rw [encode, hopc, hlen, himm, BitVec.ofNat_toNat, BitVec.setWidth_eq, wordOf_fields]

end Sys2Proof

namespace Sys2Proof.Machine

variable {s t : State} {i : Instr}

/-- SEG.ENC writes no register, whether it emits or rejects (R156). -/
theorem encodeOrReject_toRegisters (n : Nat) (p : List Byte) (s : State) :
    (encodeOrReject n p s).toRegisters = s.toRegisters := by
  rcases encodeOrReject_cases n p s with ⟨src, dst, -, -, he⟩ | ⟨-, he⟩
  · simp [he]
  · simp [he]

/-- A field write keeps the phase, in the fault state too. -/
theorem writeSegment_phase {f : TcpSegment → TcpSegment} (h : writeSegment s f = .next t) : t.phase = s.phase := by
  rcases writeSegment_next.mp h with ⟨-, rfl⟩ | ⟨-, rfl⟩
  · rfl
  · rfl

/-- A command keeps the phase, but for CS.INIT, which opens, and CS.FIN, which finalizes an open unit (R101, R103). -/
theorem exec_phase (h : exec i s = .next t) :
    t.phase = s.phase ∨ (i = .csInit ∧ t.phase = .opened) ∨
      (i = .csFin ∧ s.phase = .opened ∧ t.phase = .finalized) := by
  cases i with
  | csInit =>
    rcases execCsInit_next.mp h with ⟨-, rfl⟩ | ⟨-, rfl⟩
    · exact .inl rfl
    · exact .inr (.inl ⟨rfl, rfl⟩)
  | csAdd n =>
    rcases execCsAdd_next.mp h with ⟨-, rfl⟩ | ⟨-, ⟨-, rfl⟩ | ⟨-, ⟨-, rfl⟩ | ⟨-, rfl⟩⟩⟩
    all_goals exact .inl rfl
  | csFin =>
    rcases execCsFin_next.mp h with ⟨-, rfl⟩ | ⟨-, ⟨-, rfl⟩ | ⟨hopened, rfl⟩⟩
    · exact .inl rfl
    · exact .inl rfl
    · exact .inr (.inr ⟨rfl, hopened, rfl⟩)
  | addrSrc n =>
    rcases execAddrSrc_next.mp h with ⟨-, rfl⟩ | ⟨-, ⟨-, rfl⟩ | ⟨-, rfl⟩⟩
    all_goals exact .inl rfl
  | addrDst n =>
    rcases execAddrDst_next.mp h with ⟨-, rfl⟩ | ⟨-, ⟨-, rfl⟩ | ⟨-, rfl⟩⟩
    all_goals exact .inl rfl
  | segEnc n =>
    rcases execSegEnc_next.mp h with ⟨-, rfl⟩ | ⟨-, ⟨-, rfl⟩ | ⟨-, rfl⟩⟩
    · exact .inl rfl
    · exact .inl (congrArg Registers.phase (encodeOrReject_toRegisters ..))
    · exact .inl rfl
  | segNew | segSport | segDport | segSeq | segAck | segDoff | segFlags | segWin | segUrg =>
    simp only [exec, execSegNew, execSegSport, execSegDport, execSegSeq, execSegAck, execSegDoff, execSegFlags,
      execSegWin, execSegUrg] at h
    exact .inl (writeSegment_phase h)

/-- Every step that changes the phase runs a legal command word outside the fault state. -/
theorem exists_exec_of_step_phase_ne (h : step s = .next t) (hne : t.phase ≠ s.phase) :
    ∃ w rest i, s.cmd = w :: rest ∧ decode w = .command i ∧ exec i s = .next t := by
  rcases step_next.mp h with ⟨-, rfl⟩ | ⟨w, rest, hcmd, ⟨-, rfl⟩ | ⟨-, r, -, rfl⟩ | ⟨-, i, hdec, hexec⟩⟩
  · exact absurd rfl hne
  · exact absurd rfl hne
  · exact absurd rfl hne
  · exact ⟨w, rest, i, hcmd, hdec, hexec⟩

/-- Settles O25: CS.INIT checks no phase; a step from FINALIZED to OPEN runs a command, which by `exec_phase` is CS.INIT. -/
theorem csInitStartsFresh : Obligations.CsInitStartsFresh := by
  refine ⟨by decide, fun s hfault => ?_, fun s t hstep hfinalized hopened => ?_⟩
  · exact execCsInit_next.mpr (.inr ⟨hfault, rfl⟩)
  · have hne : t.phase ≠ s.phase := by simp [hfinalized, hopened]
    obtain ⟨w, rest, i, hcmd, hdec, hexec⟩ := exists_exec_of_step_phase_ne hstep hne
    rcases exec_phase hexec with hkept | ⟨rfl, -⟩ | ⟨-, hwas, -⟩
    · exact absurd hkept hne
    · exact ⟨rest, by rw [hcmd, encode_of_decode hdec]⟩
    · exact absurd (hfinalized.symm.trans hwas) nofun

end Sys2Proof.Machine
end

section
/-! SUPPORT. 41_segment_fields.md R121 to R130: what a field write answers outside the fault state, and the obligations about
SEG.NEW and SEG.SPORT to SEG.URG. -/

namespace Sys2Proof

/-- A word whose `LEN` is zero is its upper half, the opcode over 24 zero bits, and its immediate (R70). -/
theorem wordOf_zero_len (opc : Byte) {top imm : BitVec 32} (h : opc ++ 0#24 = top) : wordOf opc 0 imm = top ++ imm := by
  subst h
  rfl

end Sys2Proof

namespace Sys2Proof.Machine

variable {s : State} {v : BitVec 32}

/-- Truncation to a field keeps the low bits (R72, R121). -/
theorem truncImm_eq_extractLsb' {width : Nat} (h : width ≤ 32) : truncImm width v = v.extractLsb' 0 width :=
  BitVec.setWidth_eq_extractLsb' h

/-- Truncation to 32 bits loses nothing (R125). -/
theorem truncImm_32 : truncImm 32 v = v := BitVec.setWidth_eq v

/-- Outside the fault state a field write is taken, answers OK and changes no register but the segment. -/
theorem writeSegment_of_not_fault {f : TcpSegment → TcpSegment} (h : s.fault = false) :
    writeSegment s f =
      .next { s with seg := f s.seg, cmd := s.cmd.tail, rsp := s.rsp ++ [0x0000000000000000] } :=
  writeSegment_next.mpr (.inr ⟨h, rfl⟩)

/-- Settles O35: SEG.NEW is a field write that replaces the whole segment by its reset value. -/
theorem segNewGivesDefaults : Obligations.SegNewGivesDefaults :=
  ⟨by decide, fun s h => writeSegment_of_not_fault (f := fun _ => .fresh) h⟩

/-- Settles O36: both are field writes, and truncation to 16 bits keeps the low half of IMM. -/
theorem portWritesKeepLowBits : Obligations.PortWritesKeepLowBits := by
  refine ⟨fun v => ⟨wordOf_zero_len 0x11 (by decide), wordOf_zero_len 0x12 (by decide)⟩, fun s v h => ⟨?_, ?_⟩⟩
  · rw [exec, execSegSport, writeSegment_of_not_fault h, truncImm_eq_extractLsb' (by decide)]
  · rw [exec, execSegDport, writeSegment_of_not_fault h, truncImm_eq_extractLsb' (by decide)]

/-- Settles O37: both are field writes, and truncation to 32 bits keeps IMM whole. -/
theorem numberWritesKeepAllBits : Obligations.NumberWritesKeepAllBits := by
  refine ⟨fun v => ⟨wordOf_zero_len 0x13 (by decide), wordOf_zero_len 0x14 (by decide)⟩, fun s v h => ⟨?_, ?_⟩⟩
  · rw [exec, execSegSeq, writeSegment_of_not_fault h, truncImm_32]
  · rw [exec, execSegAck, writeSegment_of_not_fault h, truncImm_32]

/-- Settles O38: both are field writes, and truncation keeps the low 4 or 9 bits of IMM. -/
theorem offsetAndFlagWritesKeepLowBits : Obligations.OffsetAndFlagWritesKeepLowBits := by
  refine ⟨fun v => ⟨wordOf_zero_len 0x15 (by decide), wordOf_zero_len 0x16 (by decide)⟩, fun s v h => ⟨?_, ?_⟩⟩
  · rw [exec, execSegDoff, writeSegment_of_not_fault h, truncImm_eq_extractLsb' (by decide)]
  · rw [exec, execSegFlags, writeSegment_of_not_fault h, truncImm_eq_extractLsb' (by decide)]

/-- Settles O39: both are field writes, and truncation to 16 bits keeps the low half of IMM. -/
theorem windowAndUrgentWritesKeepLowBits : Obligations.WindowAndUrgentWritesKeepLowBits := by
  refine ⟨fun v => ⟨wordOf_zero_len 0x17 (by decide), wordOf_zero_len 0x18 (by decide)⟩, fun s v h => ⟨?_, ?_⟩⟩
  · rw [exec, execSegWin, writeSegment_of_not_fault h, truncImm_eq_extractLsb' (by decide)]
  · rw [exec, execSegUrg, writeSegment_of_not_fault h, truncImm_eq_extractLsb' (by decide)]

end Sys2Proof.Machine
end

section
/-! SUPPORT. 42_segment_encode.md R150 to R152: which addresses resolve, the bits of header bytes 12 and 13, the header's bytes,
and the obligations about them. -/

namespace Sys2Proof.Machine

variable {accept : Bool} {r : AddrReg} {g : TcpSegment}

/-- The IPv4-mapped form, byte by byte (R150). -/
def AddrReg.Mapped (r : AddrReg) : Prop :=
  (∀ k : Fin 16, k.val < 10 → r.bytes[k] = 0x00) ∧ r.bytes[10] = 0xff ∧ r.bytes[11] = 0xff

theorem mapped_iff_take : r.Mapped ↔ r.bytes.toList.take 12 = mappedPrefix := by
  have hlisted : ∀ k (h : k < mappedPrefix.length), mappedPrefix[k] = if k < 10 then 0x00 else 0xff := by decide
  rw [List.ext_getElem_iff]
  constructor
  · rintro ⟨hzero, h10, h11⟩
    refine ⟨by simp [mappedPrefix], fun k _ hk => ?_⟩
    rw [hlisted k hk, List.getElem_take, Vector.getElem_toList]
    split_ifs with hlt
    · exact hzero ⟨k, by omega⟩ hlt
    · obtain rfl | rfl : k = 10 ∨ k = 11 := by
        have : mappedPrefix.length = 12 := rfl
        omega
      · exact h10
      · exact h11
  · rintro ⟨-, hbytes⟩
    have hbyte : ∀ k (h : k < 12), r.bytes[k] = if k < 10 then 0x00 else 0xff := fun k h => by
      rw [← hlisted k h, ← hbytes k (by simp [h]) h, List.getElem_take, Vector.getElem_toList]
    exact ⟨fun k hk => by simpa [hk] using hbyte k.val (by omega), hbyte 10 (by decide), hbyte 11 (by decide)⟩

theorem resolve4_of_len_four (h : r.len.toNat = 4) :
    resolve4 accept r = some ⟨r.bytes[0], r.bytes[1], r.bytes[2], r.bytes[3]⟩ :=
  if_pos (BitVec.eq_of_toNat_eq h)

theorem resolve4_of_mapped (h : r.len.toNat = 16) (hm : r.Mapped) :
    resolve4 true r = some ⟨r.bytes[12], r.bytes[13], r.bytes[14], r.bytes[15]⟩ := by
  have hlen : r.len = 16 := BitVec.eq_of_toNat_eq h
  rw [resolve4, if_neg (by simp [hlen]), if_pos ⟨hlen, mapped_iff_take.mp hm, rfl⟩]

/-- An address of another length than 4 is INVALID unless it is an accepted mapped one. -/
theorem resolve4_eq_none (h4 : r.len.toNat ≠ 4) (h16 : ¬ (r.len.toNat = 16 ∧ r.Mapped ∧ accept = true)) :
    resolve4 accept r = none := by
  rw [resolve4, if_neg fun h => h4 (congrArg BitVec.toNat h),
    if_neg fun ⟨hlen, htake, haccept⟩ => h16 ⟨congrArg BitVec.toNat hlen, mapped_iff_take.mpr htake, haccept⟩]

/-- Settles O42: the length selects the branch of `resolve4`, and of sixteen bytes the mapped form is what it compares. -/
theorem addressesResolveAsListed : Obligations.AddressesResolveAsListed := by
  refine fun accept r => ⟨resolve4_of_len_four, fun h16 haccept hzero h10 h11 => ?_, fun h4 h16 => ?_,
    fun h16 haccept => ?_, fun h16 hbad => ?_⟩
  · subst haccept
    exact resolve4_of_mapped h16 ⟨hzero, h10, h11⟩
  · exact resolve4_eq_none h4 fun h => h16 h.1
  · exact resolve4_eq_none (by omega) (by simp [haccept])
  · refine resolve4_eq_none (by omega) fun ⟨_, ⟨hzero, h10, h11⟩, _⟩ => ?_
    rcases hbad with ⟨k, hk, hne⟩ | hne | hne
    · exact hne (hzero k hk)
    · exact hne h10
    · exact hne h11

/-- Each bit of header byte 12: NS, three zero bits, `dataOffset` (R152). -/
theorem getLsbD_byte12 (k : Nat) :
    g.byte12.getLsbD k =
      if k = 0 then g.flags.getLsbD 8 else if k < 4 then false else g.dataOffset.getLsbD (k - 4) := by
  change BitVec.getLsbD (w := 4 + 3 + 1) (g.dataOffset ++ 0#3 ++ g.flags.extractLsb' 8 1) k = _
  rw [BitVec.getLsbD_append, BitVec.getLsbD_append]
  obtain rfl | h0 := Nat.eq_zero_or_pos k
  · simp
  · have hsub : k - 1 - 3 = k - 4 := by omega
    have hlt : k - 1 < 3 ↔ k < 4 := by omega
    simp [Nat.ne_of_gt h0, hsub, hlt]

/-- Each bit of header byte 13 is the flag at that bit (R152). -/
theorem getLsbD_byte13 (k : Nat) : g.byte13.getLsbD k = (decide (k < 8) && g.flags.getLsbD k) := by
  simp [TcpSegment.byte13]

/-- Header byte 12 as a shift and an OR (R151). -/
theorem byte12_eq_or : g.byte12 = (g.dataOffset.setWidth 8 <<< 4) ||| (g.flags.extractLsb' 8 1).setWidth 8 := by
  apply BitVec.eq_of_getLsbD_eq
  intro k hk
  rw [getLsbD_byte12]
  grind

/-- The word that header bytes 12 and 13 make (R152). -/
theorem byte12_append_byte13 : g.byte12 ++ g.byte13 = (g.dataOffset.setWidth 16 <<< 12) ||| g.flags.setWidth 16 := by
  apply BitVec.eq_of_getLsbD_eq
  intro k hk
  rw [BitVec.getLsbD_append, getLsbD_byte12, getLsbD_byte13]
  grind

@[simp] theorem length_header (g : TcpSegment) : (header g).length = 20 := rfl

theorem getElem?_header_12 (g : TcpSegment) : (header g)[12]? = some g.byte12 := rfl

theorem getElem?_header_13 (g : TcpSegment) : (header g)[13]? = some g.byte13 := rfl

/-- Settles O43: every field is laid out by `be16` and `be32`; byte 12 alone is written another way. -/
theorem headerHasThisLayout : Obligations.HeaderHasThisLayout := by
  intro g
  rw [← byte12_eq_or]
  rfl

/-- Settles O44: the two bytes are those at offsets 12 and 13, and each claim reads their bits. -/
theorem flagsArePackedAsListed : Obligations.FlagsArePackedAsListed := by
  refine fun g => ⟨fun b12 b13 h12 h13 => ?_, g.byte12, g.byte13, getElem?_header_12 g, getElem?_header_13 g⟩
  obtain rfl : g.byte12 = b12 := Option.some.inj ((getElem?_header_12 g).symm.trans h12)
  obtain rfl : g.byte13 = b13 := Option.some.inj ((getElem?_header_13 g).symm.trans h13)
  have hflag (f : TcpFlag) (h : f.bit < 8) : g.byte13.getLsbD f.bit = g.hasFlag f := by
    rw [getLsbD_byte13, TcpSegment.hasFlag, decide_eq_true h, Bool.true_and]
  refine ⟨hflag .fin (by decide), hflag .syn (by decide), hflag .rst (by decide), hflag .psh (by decide),
    hflag .ack (by decide), hflag .urg (by decide), hflag .ece (by decide), hflag .cwr (by decide),
    getLsbD_byte12 0, ?_, ?_, byte12_append_byte13⟩
  · apply BitVec.eq_of_getLsbD_eq
    intro k hk
    simp [getLsbD_byte12]
    omega
  · apply BitVec.eq_of_getLsbD_eq
    intro k hk
    simp [getLsbD_byte12, hk]

end Sys2Proof.Machine
end

section
/-! SUPPORT. 42_segment_encode.md R155 to R157: what the injector leaves alone, the bytes that a SEG.ENC with valid addresses
emits, and the obligation about them. -/

namespace Sys2Proof.Machine

variable {s : State} {n : Nat} {c : BitVec 16} {hdr : List Byte}

@[simp] theorem length_injectChecksum : (injectChecksum c hdr).length = hdr.length := by
  simp [injectChecksum]

/-- The injector keeps the bytes before the checksum field (R155). -/
theorem take_injectChecksum : (injectChecksum c hdr).take 16 = hdr.take 16 := by
  rw [injectChecksum, List.take_set_of_le (by decide), List.take_set_of_le (by decide)]

/-- The injector keeps the bytes after the checksum field (R155). -/
theorem drop_injectChecksum : (injectChecksum c hdr).drop 18 = hdr.drop 18 := by
  rw [injectChecksum, List.drop_set_of_lt (by decide), List.drop_set_of_lt (by decide)]

/-- With its payload on DIN and both addresses valid, SEG.ENC emits the encoded segment and answers OK (R156). -/
theorem exec_segEnc_of_valid {src dst : Ipv4} (hfault : s.fault = false) (hdin : n ≤ s.din.length)
    (hsrc : resolve4 Config.v4MappedAccept s.srcAddr = some src)
    (hdst : resolve4 Config.v4MappedAccept s.dstAddr = some dst) :
    exec (.segEnc n) s = .next (respond .ok (BitVec.ofNat 32 (20 + n))
      (emitDout (encodeSegment s.seg src dst n (s.din.take n)) { s with din := s.din.drop n })) := by
  refine execSegEnc_next.mpr (.inr ⟨hfault, .inl ⟨hdin, ?_⟩⟩)
  simp [encodeOrReject, hsrc, hdst, Config.headerLen]

/-- Settles O50: what is emitted is the injected header, then the payload, and the injector changes bytes 16 and 17 only. -/
theorem outputIsHeaderThenPayload : Obligations.OutputIsHeaderThenPayload := by
  intro s t n hfault hdin hexec hsrcValid hdstValid
  obtain ⟨src, hsrc⟩ := Option.isSome_iff_exists.mp hsrcValid
  obtain ⟨dst, hdst⟩ := Option.isSome_iff_exists.mp hdstValid
  obtain rfl := next_eq_next.mp ((exec_segEnc_of_valid hfault hdin hsrc hdst).symm.trans hexec)
  refine ⟨injectChecksum (checksumOfSegment (pseudoHeader src dst n) (header s.seg) (s.din.take n)) (header s.seg),
    by simp, ?_, List.length_take_of_le hdin, take_injectChecksum, drop_injectChecksum⟩
  exact (List.append_assoc ..).symm

end Sys2Proof.Machine
end

section
/-! SUPPORT. 60_exceptions.md R182 to R186: how a step enters the fault state, what is kept in it, and the obligations about
faults. -/

namespace Sys2Proof.Machine

variable {s t : State} {w : Word} {rest : List Word} {i : Instr}

/-- A fault taken on the word at the head of CMD: the whole next state (R183). -/
theorem raiseFault_of_cmd (c : FaultCause) (hcmd : s.cmd = w :: rest) :
    raiseFault c (opcField w) s = { s with
      fault := true, faultCode := c.code, cmd := rest
      rsp := s.rsp ++ [c.code ++ 0#24 ++ (w.extractLsb' 56 8).setWidth 32] } := by
  rw [raiseFault, respond, hcmd]
  rfl

/-- A command enters the fault state only by use after finalize: a hold and the command's own effect leave FAULT as it was. -/
theorem exec_enters_fault (h : exec i s = .next t) (hs : s.fault = false) (ht : t.fault = true) :
    i.NeedsOpen ∧ s.phase = .finalized ∧ t = raiseFault .useAfterFinalize i.opc s := by
  rcases exec_cases h with ⟨hblocked, -⟩ | ⟨-, huse | ⟨-, ⟨-, rfl⟩ | ⟨-, st, v, u, rfl, -, -, -, hkept, -⟩⟩⟩
  · simp [hs] at hblocked
  · exact huse
  · simp [hs] at ht
  · simp [hkept, hs] at ht

/-- The two ways in which a step enters the fault state: an illegal word, and use after finalize (R182, R185, R186). -/
theorem step_enters_fault (h : step s = .next t) (hs : s.fault = false) (ht : t.fault = true) :
    ∃ w rest, s.cmd = w :: rest ∧
      ((∃ r, decode w = .illegal r ∧ t = raiseFault .illegalCommand (opcField w) s) ∨
       (∃ i, decode w = .command i ∧ i.NeedsOpen ∧ s.phase = .finalized ∧
         t = raiseFault .useAfterFinalize (opcField w) s)) := by
  rcases step_next.mp h with ⟨-, rfl⟩ | ⟨w, rest, hcmd, ⟨hblocked, -⟩ | ⟨-, hillegal⟩ | ⟨-, i, hdec, hexec⟩⟩
  · simp [hs] at ht
  · simp [hs] at hblocked
  · exact ⟨w, rest, hcmd, .inl hillegal⟩
  · obtain ⟨hopen, hphase, rfl⟩ := exec_enters_fault hexec hs ht
    obtain ⟨hopc, -, -⟩ := fields_of_decode hdec
    exact ⟨w, rest, hcmd, .inr ⟨i, hdec, hopen, hphase, by rw [hopc]⟩⟩

/-- In the fault state a step writes no register: the block is idle or BLOCKED (R184). -/
theorem step_toRegisters_of_fault (h : step s = .next t) (hs : s.fault = true) : t.toRegisters = s.toRegisters := by
  rcases step_next.mp h with ⟨-, rfl⟩ | ⟨w, rest, -, ⟨-, rfl⟩ | ⟨hrun, -⟩ | ⟨hrun, -⟩⟩
  · rfl
  · rfl
  · simp [hs] at hrun
  · simp [hs] at hrun

/-- The block's own event is its step, with the host side left alone. -/
theorem next_block_eq_next {x y : Session} :
    x.next .block = .next y ↔ ∃ t, step x.block = .next t ∧ y = { x with block := t } := by
  unfold Session.next
  cases step x.block <;> simp [eq_comm]

/-- The host reaches the queues only, but for reset (20_memory.md R65). -/
theorem host_toRegisters (x : Session) {e : HostEvent} (he : e ≠ .reset) :
    (x.host e).block.toRegisters = x.block.toRegisters := by
  cases e with
  | reset => exact absurd rfl he
  | issue | supply | drainRsp | drainDout => rfl

/-- In the fault state no event but reset writes a register (R184). -/
theorem next_toRegisters_of_fault {x y : Session} {e : Event} (h : x.next e = .next y) (hx : x.block.fault = true)
    (he : e ≠ .host .reset) : y.block.toRegisters = x.block.toRegisters := by
  cases e with
  | host e =>
    obtain rfl : x.host e = y := Host.Outcome.next.inj h
    exact host_toRegisters x fun hreset => he (congrArg Event.host hreset)
  | block =>
    obtain ⟨t, hstep, rfl⟩ := next_block_eq_next.mp h
    exact step_toRegisters_of_fault hstep hx

/-- Settles O9: the BLOCKED branch of a step; FAULT and FAULT_CODE are registers, which only reset writes in the fault state. -/
theorem faultStateRejectsEveryCommand : Obligations.FaultStateRejectsEveryCommand := by
  refine ⟨fun s w rest hcmd hs => ?_, fun x y e hx he h => ?_, fun x => rfl, fun x hx hgood => ?_⟩
  · have hstep : step s = .next (blocked s) := step_next.mpr (.inr ⟨w, rest, hcmd, .inl ⟨hs, rfl⟩⟩)
    rw [hstep, blocked, respond, hcmd]
    rfl
  · have hkept := next_toRegisters_of_fault h hx he
    exact ⟨(congrArg Registers.fault hkept).trans hx, congrArg Registers.faultCode hkept⟩
  · obtain ⟨-, hfault⟩ := hgood
    simp [hx] at hfault

/-- Settles O10: both ways into the fault state are `raiseFault` on the word at the head of CMD. -/
theorem faultEntryIsPrecise : Obligations.FaultEntryIsPrecise := by
  intro s t hs hstep ht
  obtain ⟨w, rest, hcmd, ⟨r, -, rfl⟩ | ⟨i, -, -, -, rfl⟩⟩ := step_enters_fault hstep hs ht
  · exact ⟨w, rest, 0x80, hcmd, .inl rfl, raiseFault_of_cmd .illegalCommand hcmd⟩
  · exact ⟨w, rest, 0x81, hcmd, .inr rfl, raiseFault_of_cmd .useAfterFinalize hcmd⟩

/-- Settles O11: both commands check the phase before they look at DIN. -/
theorem useAfterFinalizeFaults : Obligations.UseAfterFinalizeFaults := by
  refine fun s hfault hphase => ⟨fun n => ?_, ?_⟩
  · exact execCsAdd_next.mpr (.inr ⟨hfault, .inl ⟨hphase, rfl⟩⟩)
  · exact execCsFin_next.mpr (.inr ⟨hfault, .inl ⟨hphase, rfl⟩⟩)

end Sys2Proof.Machine
end

section
/-! SUPPORT. 60_exceptions.md R181: SEG.ENC with an invalid address, and the obligation about it. -/

namespace Sys2Proof.Machine

variable {s : State} {n : Nat}

/-- With its payload on DIN and an invalid address, SEG.ENC takes the payload and answers INVALID_ADDRESS (R156, R181). -/
theorem exec_segEnc_of_invalid (hfault : s.fault = false) (hdin : n ≤ s.din.length)
    (hinvalid : resolve4 Config.v4MappedAccept s.srcAddr = none ∨ resolve4 Config.v4MappedAccept s.dstAddr = none) :
    exec (.segEnc n) s = .next (respond .invalidAddress 0 { s with din := s.din.drop n }) := by
  refine execSegEnc_next.mpr (.inr ⟨hfault, .inl ⟨hdin, ?_⟩⟩)
  rcases encodeOrReject_cases n (s.din.take n) { s with din := s.din.drop n } with
    ⟨src, dst, hsrc, hdst, -⟩ | ⟨-, hreject⟩
  · simp [hsrc, hdst] at hinvalid
  · exact hreject.symm

/-- Settles O49: the answer is `respond` on the state without the payload, and STATUS is one of the registers it keeps. -/
theorem invalidAddressIsNoFault : Obligations.InvalidAddressIsNoFault := by
  intro s n hfault hdin hinvalid
  exact ⟨_, exec_segEnc_of_invalid hfault hdin hinvalid, rfl, rfl, rfl, rfl⟩

end Sys2Proof.Machine
end

section
/-! SUPPORT. 70_reset_and_hazards.md R211 and R217: the step of a legal word, what the commands of one unit leave alone of the
other, and the obligations about them. -/

namespace Sys2Proof.Machine

variable {s t : State} {i : Instr} {w : Word} {rest : List Word}

/-- Outside the fault state a legal word at the head of CMD runs as its command (R186). -/
theorem step_of_command (hcmd : s.cmd = w :: rest) (hfault : s.fault = false) (hdec : decode w = .command i) :
    step s = exec i s := by
  simp [step, hcmd, execute, hfault, hdec]

/-- Settles O23: `reset` has no fault and no queued word, so the issued word is the head of CMD. -/
theorem firstCommandAfterResetRuns : Obligations.FirstCommandAfterResetRuns :=
  ⟨rfl, rfl, fun w _ hdec => ⟨Session.start.host (.issue w), rfl, step_of_command (w := w) (rest := []) rfl rfl hdec⟩⟩

/-- The accumulator S0 to S2 is written by CS.INIT and CS.ADD only; CS.FIN keeps it (R103). -/
theorem exec_cs (h : exec i s = .next t) : t.cs = s.cs ∨ i = .csInit ∨ ∃ n, i = .csAdd n := by
  cases i with
  | csInit => exact .inr (.inl rfl)
  | csAdd n => exact .inr (.inr ⟨n, rfl⟩)
  | csFin =>
    rcases execCsFin_next.mp h with ⟨-, rfl⟩ | ⟨-, ⟨-, rfl⟩ | ⟨-, rfl⟩⟩
    all_goals exact .inl rfl
  | addrSrc n =>
    rcases execAddrSrc_next.mp h with ⟨-, rfl⟩ | ⟨-, ⟨-, rfl⟩ | ⟨-, rfl⟩⟩
    all_goals exact .inl rfl
  | addrDst n =>
    rcases execAddrDst_next.mp h with ⟨-, rfl⟩ | ⟨-, ⟨-, rfl⟩ | ⟨-, rfl⟩⟩
    all_goals exact .inl rfl
  | segEnc n =>
    rcases execSegEnc_next.mp h with ⟨-, rfl⟩ | ⟨-, ⟨-, rfl⟩ | ⟨-, rfl⟩⟩
    · exact .inl rfl
    · exact .inl (congrArg Registers.cs (encodeOrReject_toRegisters ..))
    · exact .inl rfl
  | segNew | segSport | segDport | segSeq | segAck | segDoff | segFlags | segWin | segUrg =>
    simp only [exec, execSegNew, execSegSport, execSegDport, execSegSeq, execSegAck, execSegDoff, execSegFlags,
      execSegWin, execSegUrg] at h
    rcases writeSegment_next.mp h with ⟨-, rfl⟩ | ⟨-, rfl⟩
    all_goals exact .inl rfl

/-- No command but CS.INIT, CS.FIN and CS.ADD changes S0 to S3 (R217). -/
theorem exec_keeps_checksumUnit (h : exec i s = .next t) (hinit : i ≠ .csInit) (hfin : i ≠ .csFin)
    (hadd : ∀ n, i ≠ .csAdd n) : t.cs = s.cs ∧ t.phase = s.phase := by
  constructor
  · rcases exec_cs h with hkept | rfl | ⟨n, rfl⟩
    · exact hkept
    · exact absurd rfl hinit
    · exact absurd rfl (hadd n)
  · rcases exec_phase h with hkept | ⟨rfl, -⟩ | ⟨rfl, -⟩
    · exact hkept
    · exact absurd rfl hinit
    · exact absurd rfl hfin

/-- CS.INIT, CS.FIN and CS.ADD change neither the segment nor an address register nor DOUT, whatever they answer (R217). -/
theorem exec_checksumCommand_frame (h : exec i s = .next t) (hi : i = .csInit ∨ i = .csFin ∨ ∃ n, i = .csAdd n) :
    t.seg = s.seg ∧ t.srcAddr = s.srcAddr ∧ t.dstAddr = s.dstAddr ∧ t.dout = s.dout := by
  rcases hi with rfl | rfl | ⟨n, rfl⟩
  · rcases execCsInit_next.mp h with ⟨-, rfl⟩ | ⟨-, rfl⟩
    all_goals exact ⟨rfl, rfl, rfl, rfl⟩
  · rcases execCsFin_next.mp h with ⟨-, rfl⟩ | ⟨-, ⟨-, rfl⟩ | ⟨-, rfl⟩⟩
    all_goals exact ⟨rfl, rfl, rfl, rfl⟩
  · rcases execCsAdd_next.mp h with ⟨-, rfl⟩ | ⟨-, ⟨-, rfl⟩ | ⟨-, ⟨-, rfl⟩ | ⟨-, rfl⟩⟩⟩
    all_goals exact ⟨rfl, rfl, rfl, rfl⟩

/-- Settles O54: the frame of the CS commands, and that of all others. -/
theorem unitsDoNotDisturbEachOther : Obligations.UnitsDoNotDisturbEachOther :=
  fun _ _ _ h => ⟨exec_checksumCommand_frame h, exec_keeps_checksumUnit h⟩

end Sys2Proof.Machine
end

section
/-! SUPPORT. 30_encoding.md R70 to R80: the word of each form, the rows of the opcode map, and the obligations about decoder
and encoder. -/

namespace Sys2Proof

variable {opc : Byte} {len : BitVec 24} {imm : BitVec 32} {w : Word} {i : Instr} {r : OpcodeRow}

theorem decode_wordOf_of_formZ (h : formZ opc = some i) : decode (wordOf opc 0 0) = .command i := by
  simp [decode, h]

theorem decode_wordOf_of_formL (hz : formZ opc = none) (h : formL opc len.toNat = some i) :
    decode (wordOf opc len 0) = .command i := by
  simp [decode, hz, h]

theorem decode_wordOf_of_formI (hz : formZ opc = none) (hl : formL opc 0 = none) (h : formI opc imm = some i) :
    decode (wordOf opc 0 imm) = .command i := by
  simp [decode, hz, hl, h]

/-- A well-formed byte count passes through `LEN` (R71). -/
theorem toNat_ofNat_len {n : Nat} (h : n ≤ Config.maxLen) : (BitVec.ofNat 24 n).toNat = n := by
  rw [BitVec.toNat_ofNat]
  exact Nat.mod_eq_of_lt (Nat.lt_succ_of_le h)

/-- The word of a form-L command decodes to it, as far as its byte count passes through `LEN`. -/
theorem decode_wordOf_len {n : Nat} (h : n ≤ Config.maxLen) (hz : formZ opc = none) (hl : formL opc n = some i) :
    decode (wordOf opc (BitVec.ofNat 24 n) 0) = .command i :=
  decode_wordOf_of_formL hz (by rw [toNat_ofNat_len h, hl])

/-- Settles O1: the word of each form has its reserved fields zero, and a well-formed byte count passes through `LEN`. -/
theorem decodeOfEncodeIsCommand : Obligations.DecodeOfEncodeIsCommand := by
  intro i hwf
  cases i with
  | csInit | csFin | segNew => exact decode_wordOf_of_formZ rfl
  | csAdd n | addrSrc n | addrDst n | segEnc n => exact decode_wordOf_len hwf rfl rfl
  | segSport | segDport | segSeq | segAck | segDoff | segFlags | segWin | segUrg =>
    exact decode_wordOf_of_formI rfl rfl rfl

theorem decode_encode (h : i.WellFormed) : decode (encode i) = .command i := decodeOfEncodeIsCommand i h

/-- A decoded command is well formed: its byte count is that of a 24-bit field. -/
theorem wellFormed_of_decode (h : decode w = .command i) : i.WellFormed := by
  obtain ⟨-, hlen, -⟩ := fields_of_decode h
  rw [Instr.WellFormed, hlen]
  exact Nat.le_of_lt_succ (lenField w).isLt

/-- Settles O2: decoding drops no field of the word. -/
theorem encodeOfDecodeIsWord : Obligations.EncodeOfDecodeIsWord :=
  fun _ _ h => ⟨wellFormed_of_decode h, encode_of_decode h⟩

/-- The fields that a form leaves reserved are zero (R74 (b) to (d)). -/
def Form.ReservedZero : Form → BitVec 24 → BitVec 32 → Prop
  | .z, len, imm => len = 0 ∧ imm = 0
  | .l, _, imm => imm = 0
  | .i, len, _ => len = 0

theorem wordOf_and (opc₁ opc₂ : Byte) (len₁ len₂ : BitVec 24) (imm₁ imm₂ : BitVec 32) :
    wordOf opc₁ len₁ imm₁ &&& wordOf opc₂ len₂ imm₂ = wordOf (opc₁ &&& opc₂) (len₁ &&& len₂) (imm₁ &&& imm₂) := by
  apply BitVec.eq_of_getLsbD_eq
  intro k _
  simp only [BitVec.getLsbD_and, getLsbD_wordOf]
  split_ifs <;> rfl

theorem wordOf_inj {opc' : Byte} {len' : BitVec 24} {imm' : BitVec 32} :
    wordOf opc len imm = wordOf opc' len' imm' ↔ opc = opc' ∧ len = len' ∧ imm = imm' := by
  constructor
  · intro h
    refine ⟨?_, ?_, ?_⟩
    · simpa using congrArg opcField h
    · simpa using congrArg lenField h
    · simpa using congrArg immField h
  · rintro ⟨rfl, rfl, rfl⟩
    rfl

/-- What a mask keeps of `LEN` (R73). -/
def Form.lenMask : Form → BitVec 24
  | .z | .i => BitVec.allOnes 24
  | .l => 0#24

/-- What a mask keeps of `IMM` (R73). -/
def Form.immMask : Form → BitVec 32
  | .z | .l => BitVec.allOnes 32
  | .i => 0#32

/-- A mask keeps the opcode and the reserved fields (R73). -/
theorem Form.mask_eq (f : Form) : f.mask = wordOf (BitVec.allOnes 8) f.lenMask f.immMask := by
  cases f <;> decide

/-- A word fits a row when it has the row's opcode and its reserved fields are zero (R73, R74). -/
theorem OpcodeRow.fits_iff : r.Fits w ↔ opcField w = r.opc ∧ r.form.ReservedZero (lenField w) (immField w) := by
  rw [OpcodeRow.Fits, OpcodeRow.matchWord, Form.mask_eq]
  nth_rw 1 [← wordOf_fields w]
  rw [wordOf_and, wordOf_inj, BitVec.and_allOnes]
  cases r.form with
  | z => simp only [Form.ReservedZero, Form.lenMask, Form.immMask, BitVec.and_allOnes]
  | l =>
    simp only [Form.ReservedZero, Form.lenMask, Form.immMask, BitVec.and_allOnes, BitVec.and_zero,
      BitVec.ofNat_eq_ofNat, true_and]
  | i =>
    simp only [Form.ReservedZero, Form.lenMask, Form.immMask, BitVec.and_allOnes, BitVec.and_zero,
      BitVec.ofNat_eq_ofNat, and_true]

/-- Every command has a row, and keeps the fields zero that the row's form reserves. -/
theorem exists_row (i : Instr) :
    ∃ r ∈ opcodeTable, r.opc = i.opc ∧ ∀ len : BitVec 24, len.toNat = i.len → r.form.ReservedZero len i.imm := by
  cases i <;> simp [opcodeTable, Instr.opc, Instr.len, Instr.imm, Form.ReservedZero, BitVec.toNat_eq]

/-- The opcode of a row is one of the row's form. -/
theorem form_of_row : ∀ r ∈ opcodeTable,
    (r.form = .z → (formZ r.opc).isSome) ∧
    (r.form = .l → formZ r.opc = none ∧ (formL r.opc 0).isSome) ∧
    (r.form = .i → formZ r.opc = none ∧ formL r.opc 0 = none ∧ (formI r.opc 0).isSome) := by
  decide

/-- A word with a row's opcode and its reserved fields zero decodes to a command of that opcode. -/
theorem decode_of_row (hr : r ∈ opcodeTable) (hzero : r.form.ReservedZero len imm) :
    ∃ i, decode (wordOf r.opc len imm) = .command i ∧ i.opc = r.opc := by
  obtain ⟨hformZ, hformL, hformI⟩ := form_of_row r hr
  cases hf : r.form with
  | z =>
    simp only [hf, Form.ReservedZero] at hzero
    obtain ⟨rfl, rfl⟩ := hzero
    obtain ⟨i, hi⟩ := Option.isSome_iff_exists.mp (hformZ hf)
    exact ⟨i, decode_wordOf_of_formZ hi, (fields_of_formZ hi).1⟩
  | l =>
    simp only [hf, Form.ReservedZero] at hzero
    subst hzero
    obtain ⟨hz, hl⟩ := hformL hf
    obtain ⟨i, hi⟩ := Option.isSome_iff_exists.mp ((isSome_formL_iff (n := len.toNat)).mpr (isSome_formL_iff.mp hl))
    exact ⟨i, decode_wordOf_of_formL hz hi, (fields_of_formL hi).1⟩
  | i =>
    simp only [hf, Form.ReservedZero] at hzero
    subst hzero
    obtain ⟨hz, hl, hi⟩ := hformI hf
    obtain ⟨i, hi⟩ := Option.isSome_iff_exists.mp ((isSome_formI_iff (v := imm)).mpr (isSome_formI_iff.mp hi))
    exact ⟨i, decode_wordOf_of_formI hz hl hi, (fields_of_formI hi).1⟩

theorem row_eq_of_opc_eq {r₁ r₂ : OpcodeRow} (h₁ : r₁ ∈ opcodeTable) (h₂ : r₂ ∈ opcodeTable) (h : r₁.opc = r₂.opc) :
    r₁ = r₂ :=
  List.inj_on_of_nodup_map (f := OpcodeRow.opc) (by decide) h₁ h₂ h

/-- Settles O3: a fit is the row's opcode with its reserved fields zero, and no opcode has two rows. -/
theorem wordDecodesToTheRowItFits : Obligations.WordDecodesToTheRowItFits := by
  refine ⟨fun w i hdec => ?_, fun w r hr hfits => ?_, fun w r₁ h₁ r₂ h₂ hfits₁ hfits₂ => ?_⟩
  · obtain ⟨hopc, hlen, himm⟩ := fields_of_decode hdec
    obtain ⟨r, hr, hrow, hzero⟩ := exists_row i
    exact ⟨r, hr, hrow, OpcodeRow.fits_iff.mpr ⟨by rw [hrow, hopc], himm ▸ hzero _ hlen.symm⟩⟩
  · obtain ⟨hopc, hzero⟩ := OpcodeRow.fits_iff.mp hfits
    rw [← wordOf_fields w, hopc]
    exact decode_of_row hr hzero
  · obtain ⟨hopc₁, -⟩ := OpcodeRow.fits_iff.mp hfits₁
    obtain ⟨hopc₂, -⟩ := OpcodeRow.fits_iff.mp hfits₂
    exact row_eq_of_opc_eq h₁ h₂ (hopc₁.symm.trans hopc₂)

/-- Settles O5: each word is written out, and the decoder computes. -/
theorem specWordsDecode : Obligations.SpecWordsDecode := by
  refine ⟨?_, ?_, ?_, ?_, ?_, ?_, ?_, ?_, ?_, ?_⟩ <;> decide

end Sys2Proof
end

section
/-! SUPPORT. 60_exceptions.md R186 and 70_reset_and_hazards.md R213: every command answers, which of its four ways it takes in
which state, what a step does to the queues, and the obligations about steps, faults and holds. -/

namespace Sys2Proof.Machine

variable {s t : State} {n : Nat} {w : Word} {rest : List Word} {i : Instr}

/-- The change of the segment that a command makes, for SEG.NEW and SEG.SPORT to SEG.URG (41_segment_fields.md R120). -/
def segmentWrite : Instr → Option (TcpSegment → TcpSegment)
  | .segNew => some fun _ => .fresh
  | .segSport v => some fun g => { g with sourcePort := truncImm 16 v }
  | .segDport v => some fun g => { g with destPort := truncImm 16 v }
  | .segSeq v => some fun g => { g with sequenceNumber := truncImm 32 v }
  | .segAck v => some fun g => { g with acknowledgmentNumber := truncImm 32 v }
  | .segDoff v => some fun g => { g with dataOffset := truncImm 4 v }
  | .segFlags v => some fun g => { g with flags := truncImm 9 v }
  | .segWin v => some fun g => { g with windowSize := truncImm 16 v }
  | .segUrg v => some fun g => { g with urgentPointer := truncImm 16 v }
  | _ => none

theorem exec_eq_writeSegment {f : TcpSegment → TcpSegment} (hf : segmentWrite i = some f) :
    exec i s = writeSegment s f := by
  cases i <;> cases hf <;> rfl

/-- SEG.NEW and the field writes are BLOCKED, or make their change and answer OK. -/
theorem exec_segmentWrite {f : TcpSegment → TcpSegment} (h : exec i s = .next t) (hf : segmentWrite i = some f) :
    (s.fault = true ∧ t = blocked s) ∨ (s.fault = false ∧ t = respond .ok 0 { s with seg := f s.seg }) :=
  writeSegment_next.mp (exec_eq_writeSegment hf ▸ h)

theorem exists_unlessBlocked_next {k : Result} (h : ∃ t, k = .next t) : ∃ t, unlessBlocked s k = .next t := by
  unfold unlessBlocked
  split
  · exact ⟨_, rfl⟩
  · exact h

theorem exists_unlessFinalized_next {opc : Byte} {k : Result} (h : ∃ t, k = .next t) :
    ∃ t, unlessFinalized opc s k = .next t := by
  unfold unlessFinalized
  split
  · exact ⟨_, rfl⟩
  · exact h

theorem exists_withDin_next {k : List Byte → State → State} : ∃ t, withDin n s k = .next t := by
  rcases Nat.lt_or_ge s.din.length n with h | h
  · exact ⟨_, withDin_of_lt h⟩
  · exact ⟨_, withDin_of_le h⟩

/-- Every command answers a next state, whatever the state. -/
theorem exists_exec_next (i : Instr) (s : State) : ∃ t, exec i s = .next t := by
  cases i with
  | csAdd => exact exists_unlessBlocked_next (exists_unlessFinalized_next exists_withDin_next)
  | csFin => exact exists_unlessBlocked_next (exists_unlessFinalized_next ⟨_, rfl⟩)
  | addrSrc | addrDst | segEnc => exact exists_unlessBlocked_next exists_withDin_next
  | csInit | segNew | segSport | segDport | segSeq | segAck | segDoff | segFlags | segWin | segUrg =>
    exact exists_unlessBlocked_next ⟨_, rfl⟩

/-- In the fault state a command is BLOCKED (R184). -/
theorem exec_of_fault (hfault : s.fault = true) : exec i s = .next (blocked s) := by
  obtain ⟨t, h⟩ := exists_exec_next i s
  rcases exec_cases h with ⟨-, rfl⟩ | ⟨hrun, -⟩
  · exact h
  · simp [hfault] at hrun

/-- In FINALIZED, CS.ADD and CS.FIN fault (R182). -/
theorem exec_of_finalized (hfault : s.fault = false) (hneeds : i.NeedsOpen) (hphase : s.phase = .finalized) :
    exec i s = .next (raiseFault .useAfterFinalize i.opc s) := by
  obtain ⟨t, h⟩ := exists_exec_next i s
  rcases exec_cases h with ⟨hblocked, -⟩ | ⟨-, ⟨-, -, rfl⟩ | ⟨hpass, -⟩⟩
  · simp [hfault] at hblocked
  · exact h
  · exact absurd ⟨hneeds, hphase⟩ hpass

/-- A command that passes its checks is held while DIN is too short for it (R213). -/
theorem exec_of_short (hfault : s.fault = false) (hpass : ¬ (i.NeedsOpen ∧ s.phase = .finalized))
    (hshort : s.din.length < i.len) : exec i s = .next s := by
  obtain ⟨t, h⟩ := exists_exec_next i s
  rcases exec_cases h with ⟨hblocked, -⟩ | ⟨-, ⟨hneeds, hphase, -⟩ | ⟨-, ⟨-, rfl⟩ | ⟨hlong, -⟩⟩⟩
  · simp [hfault] at hblocked
  · exact absurd ⟨hneeds, hphase⟩ hpass
  · exact h
  · omega

/-- A command that passes its checks and has its bytes on DIN is taken with them, and does not fault (R52, R55). -/
theorem exec_of_enough (hfault : s.fault = false) (hpass : ¬ (i.NeedsOpen ∧ s.phase = .finalized))
    (hlong : i.len ≤ s.din.length) :
    ∃ t, exec i s = .next t ∧ t.cmd = s.cmd.tail ∧ t.fault = false ∧ t.din = s.din.drop i.len := by
  obtain ⟨t, h⟩ := exists_exec_next i s
  rcases exec_cases h with ⟨hblocked, -⟩ | ⟨-, ⟨hneeds, hphase, -⟩ |
    ⟨-, ⟨hshort, -⟩ | ⟨-, st, v, u, rfl, hcmd, -, hdin, hkept, -⟩⟩⟩
  · simp [hfault] at hblocked
  · exact absurd ⟨hneeds, hphase⟩ hpass
  · omega
  · exact ⟨_, h, by simp [hcmd], by simp [hkept, hfault], by simp [hdin]⟩

theorem step_of_empty (hcmd : s.cmd = []) : step s = .next s := step_next.mpr (.inl ⟨hcmd, rfl⟩)

theorem step_of_fault (hcmd : s.cmd = w :: rest) (hfault : s.fault = true) : step s = .next (blocked s) :=
  step_next.mpr (.inr ⟨w, rest, hcmd, .inl ⟨hfault, rfl⟩⟩)

theorem step_of_illegal {r : Illegal} (hcmd : s.cmd = w :: rest) (hfault : s.fault = false) (hdec : decode w = .illegal r) :
    step s = .next (raiseFault .illegalCommand (opcField w) s) :=
  step_next.mpr (.inr ⟨w, rest, hcmd, .inr (.inl ⟨hfault, r, hdec, rfl⟩)⟩)

theorem exists_step_next (s : State) : ∃ t, step s = .next t := by
  cases hcmd : s.cmd with
  | nil => exact ⟨_, step_of_empty hcmd⟩
  | cons w rest =>
    cases hfault : s.fault with
    | true => exact ⟨_, step_of_fault hcmd hfault⟩
    | false =>
      cases hdec : decode w with
      | illegal r => exact ⟨_, step_of_illegal hcmd hfault hdec⟩
      | command i => exact step_of_command hcmd hfault hdec ▸ exists_exec_next i s

/-- Settles O6: the decoded command is the branch of R186 that is left. -/
theorem stepRunsDecodedCommand : Obligations.StepRunsDecodedCommand := fun _ _ _ _ => step_of_command

/-- Settles O7: an empty CMD is the idle branch of a step. -/
theorem idleBlockKeepsItsState : Obligations.IdleBlockKeepsItsState := fun _ => step_of_empty

/-- Settles O8: no meaning stops, and the check for the fault state comes first in each. -/
theorem stepAndExecAlwaysAnswer : Obligations.StepAndExecAlwaysAnswer :=
  ⟨exists_step_next, exists_exec_next, fun _ _ => exec_of_fault⟩

/-- Settles O12: `step_enters_fault` gives the two causes, `step_of_illegal` and `exec_of_finalized` that each of them faults. -/
theorem faultsHaveExactlyTwoCauses : Obligations.FaultsHaveExactlyTwoCauses := by
  intro s t w rest hcmd hfault hstep
  have hcauses (ht : t.fault = true) : (∃ r, decode w = .illegal r ∧ t.faultCode = 0x80) ∨
      (∃ i, decode w = .command i ∧ i.NeedsOpen ∧ s.phase = .finalized ∧ t.faultCode = 0x81) := by
    obtain ⟨w', rest', hcmd', hcause⟩ := step_enters_fault hstep hfault ht
    obtain ⟨rfl, -⟩ : w = w' ∧ rest = rest' := by simpa [hcmd] using hcmd'
    rcases hcause with ⟨r, hdec, rfl⟩ | ⟨i, hdec, hneeds, hphase, rfl⟩
    · exact .inl ⟨r, hdec, rfl⟩
    · exact .inr ⟨i, hdec, hneeds, hphase, rfl⟩
  refine ⟨⟨fun ht => ?_, ?_⟩, fun ht => ⟨fun hcode => ?_, fun ⟨r, hdec⟩ => ?_⟩⟩
  · rcases hcauses ht with ⟨r, hdec, -⟩ | ⟨i, hdec, hneeds, hphase, -⟩
    · exact .inl ⟨r, hdec⟩
    · exact .inr ⟨i, hdec, hneeds, hphase⟩
  · rintro (⟨r, hdec⟩ | ⟨i, hdec, hneeds, hphase⟩)
    · obtain rfl := next_eq_next.mp ((step_of_illegal hcmd hfault hdec).symm.trans hstep)
      rfl
    · rw [step_of_command hcmd hfault hdec, exec_of_finalized hfault hneeds hphase] at hstep
      obtain rfl := next_eq_next.mp hstep
      rfl
  · rcases hcauses ht with ⟨r, hdec, -⟩ | ⟨i, -, -, -, hcode'⟩
    · exact ⟨r, hdec⟩
    · exact absurd (hcode.symm.trans hcode') (by decide)
  · rcases hcauses ht with ⟨-, -, hcode⟩ | ⟨i, hdec', -⟩
    · exact hcode
    · simp [hdec] at hdec'

/-- When the command at the head of CMD is held (R213). -/
theorem held_iff (hcmd : s.cmd = w :: rest) (hdec : decode w = .command i) :
    s.Held ↔ s.fault = false ∧ ¬ (i.NeedsOpen ∧ s.phase = .finalized) ∧ s.din.length < i.len := by
  constructor
  · rintro ⟨w', rest', i', hcmd', hfault, hdec', hpass, hshort⟩
    obtain ⟨rfl, -⟩ : w = w' ∧ rest = rest' := by simpa [hcmd] using hcmd'
    obtain rfl : i = i' := by simpa [hdec] using hdec'
    exact ⟨hfault, hpass, hshort⟩
  · rintro ⟨hfault, hpass, hshort⟩
    exact ⟨w, rest, i, hcmd, hfault, hdec, hpass, hshort⟩

/-- A held command is a step that changes nothing (log entry 4). -/
theorem step_of_held (h : s.Held) : step s = .next s := by
  obtain ⟨w, rest, i, hcmd, hfault, hdec, hpass, hshort⟩ := h
  rw [step_of_command hcmd hfault hdec, exec_of_short hfault hpass hshort]

/-- Settles O15: the held state is its own next state, and `Ended` rules out a hold. -/
theorem heldCommandIsStuck : Obligations.HeldCommandIsStuck := by
  refine fun s hheld => ⟨fun k => ?_, ?_⟩
  · induction k with
    | zero => exact run_zero s
    | succ k ih => rw [run_succ k (step_of_held hheld), ih]
  · rintro x rfl ⟨-, hnot, -⟩
    exact hnot hheld

/-- Settles O16: of the checks before a hold, only the one for DIN depends on DIN. -/
theorem heldCommandProceedsWithBytes : Obligations.HeldCommandProceedsWithBytes := by
  intro s w rest i more hcmd hheld hdec hlong
  obtain ⟨hfault, hpass, -⟩ := (held_iff hcmd hdec).mp hheld
  obtain ⟨t, hexec, htaken, hkept, hdin⟩ := exec_of_enough (s := { s with din := s.din ++ more }) hfault hpass hlong
  refine ⟨t, ?_, ?_, hkept, hdin⟩
  · exact (step_of_command (s := { s with din := s.din ++ more }) hcmd hfault hdec).trans hexec
  · simpa [hcmd] using htaken

@[simp] theorem length_encodeSegment (g : TcpSegment) (src dst : Ipv4) (n : Nat) (p : List Byte) :
    (encodeSegment g src dst n p).length = 20 + p.length := by
  simp [encodeSegment]

/-- A command leaves DOUT alone, but for a SEG.ENC that emits its segment (R53, R156). -/
theorem exec_dout (h : exec i s = .next t) :
    t.dout = s.dout ∨ ∃ n src dst, i = .segEnc n ∧ n ≤ s.din.length ∧
      t = respond .ok (BitVec.ofNat 32 (20 + n))
        (emitDout (encodeSegment s.seg src dst n (s.din.take n)) { s with din := s.din.drop n }) := by
  cases i with
  | csInit | csFin | csAdd =>
    obtain ⟨-, -, -, hdout⟩ := exec_checksumCommand_frame h (by simp)
    exact .inl hdout
  | addrSrc n =>
    rcases execAddrSrc_next.mp h with ⟨-, rfl⟩ | ⟨-, ⟨-, rfl⟩ | ⟨-, rfl⟩⟩
    all_goals exact .inl rfl
  | addrDst n =>
    rcases execAddrDst_next.mp h with ⟨-, rfl⟩ | ⟨-, ⟨-, rfl⟩ | ⟨-, rfl⟩⟩
    all_goals exact .inl rfl
  | segEnc n =>
    rcases execSegEnc_next.mp h with ⟨-, rfl⟩ | ⟨-, ⟨hlong, rfl⟩ | ⟨-, rfl⟩⟩
    · exact .inl rfl
    · rcases encodeOrReject_cases n (s.din.take n) { s with din := s.din.drop n } with
        ⟨src, dst, -, -, hemit⟩ | ⟨-, hreject⟩
      · exact .inr ⟨n, src, dst, rfl, hlong, hemit⟩
      · exact .inl (by rw [hreject]; rfl)
    · exact .inl rfl
  | segNew | segSport | segDport | segSeq | segAck | segDoff | segFlags | segWin | segUrg =>
    rcases exec_segmentWrite h rfl with ⟨-, rfl⟩ | ⟨-, rfl⟩
    all_goals exact .inl rfl

theorem exec_appends_dout (h : exec i s = .next t) : ∃ bytes, t.dout = s.dout ++ bytes := by
  rcases exec_dout h with hkept | ⟨n, src, dst, -, -, rfl⟩
  · exact ⟨[], by rw [hkept, List.append_nil]⟩
  · exact ⟨_, rfl⟩

/-- What a step takes and gives: the head of CMD for one response and perhaps DOUT bytes. -/
def Takes (s t : State) : Prop :=
  ∃ (w : Word) (rest : List Word) (answer : Word) (bytes : List Byte),
    s.cmd = w :: rest ∧ t.cmd = rest ∧ t.rsp = s.rsp ++ [answer] ∧ t.dout = s.dout ++ bytes

theorem takes_of_respond {st : RspStatus} {v : BitVec 32} {u : State} {bytes : List Byte} (hcmd : s.cmd = w :: rest)
    (hkept : u.cmd = s.cmd) (hrsp : u.rsp = s.rsp) (hdout : u.dout = s.dout ++ bytes) : Takes s (respond st v u) :=
  ⟨w, rest, rspWord st v, bytes, hcmd, by simp [hkept, hcmd], by simp [hrsp], by simp [hdout]⟩

/-- A step is idle or held and changes nothing, or takes the command at the head of CMD. -/
theorem step_keeps_or_takes (h : step s = .next t) : ((s.cmd = [] ∨ s.Held) ∧ t = s) ∨ (¬ s.Held ∧ Takes s t) := by
  rcases step_next.mp h with ⟨hnil, rfl⟩ |
    ⟨w, rest, hcmd, ⟨hfault, rfl⟩ | ⟨-, r, hdec, rfl⟩ | ⟨hfault, i, hdec, hexec⟩⟩
  · exact .inl ⟨.inl hnil, rfl⟩
  · refine .inr ⟨fun ⟨_, _, _, _, hrun, _⟩ => ?_, takes_of_respond (bytes := []) hcmd rfl rfl (by simp)⟩
    simp [hfault] at hrun
  · refine .inr ⟨fun ⟨w', _, _, hcmd', _, hdec', _⟩ => ?_, takes_of_respond (bytes := []) hcmd rfl rfl (by simp)⟩
    obtain ⟨rfl, -⟩ : w = w' ∧ _ := by simpa [hcmd] using hcmd'
    simp [hdec] at hdec'
  · rw [held_iff hcmd hdec]
    obtain ⟨bytes, hdout⟩ := exec_appends_dout hexec
    rcases exec_cases hexec with ⟨hblocked, -⟩ | ⟨-, ⟨hneeds, hphase, rfl⟩ |
      ⟨hpass, ⟨hshort, rfl⟩ | ⟨hlong, st, v, u, rfl, hkept, hrsp, -⟩⟩⟩
    · simp [hfault] at hblocked
    · exact .inr ⟨fun ⟨_, hpass, _⟩ => hpass ⟨hneeds, hphase⟩, takes_of_respond (bytes := []) hcmd rfl rfl (by simp)⟩
    · exact .inl ⟨.inr ⟨hfault, hpass, hshort⟩, rfl⟩
    · exact .inr ⟨fun ⟨_, _, hshort⟩ => by omega, takes_of_respond hcmd hkept hrsp hdout⟩

/-- Settles O14: the two ways of `step_keeps_or_takes`. -/
theorem stepTakesTheCommandUnlessHeld : Obligations.StepTakesTheCommandUnlessHeld := by
  intro s t hstep
  rcases step_keeps_or_takes hstep with hkeeps | ⟨hfree, w, rest, -, -, hcmd, htaken, -, -⟩
  · exact .inl hkeeps
  · exact .inr ⟨hfree, w, rest, hcmd, htaken⟩

end Sys2Proof.Machine
end

section
/-! SUPPORT. 20_memory.md R52, R53 and R56, 30_encoding.md R76: the response words by their fields, what a command moves on DIN
and DOUT, and the obligations about the streams and the record of a run. -/

namespace Sys2Proof

/-- A number below `2^32` as a word has only an `IMM` field. -/
theorem ofNat_eq_wordOf {k : Nat} (h : k < 2 ^ 32) : BitVec.ofNat 64 k = wordOf 0 0 (BitVec.ofNat 32 k) := by
  apply BitVec.eq_of_getLsbD_eq
  intro j hj
  rw [getLsbD_wordOf, BitVec.getLsbD_ofNat, BitVec.getLsbD_ofNat]
  by_cases h32 : j < 32
  · simp [h32, hj]
  · have hbit : k.testBit j = false :=
      Nat.testBit_lt_two_pow (h.trans_le (Nat.pow_le_pow_right (by decide) (Nat.not_lt.mp h32)))
    simp [h32, hbit]

end Sys2Proof

namespace Sys2Proof.Machine

variable {s t : State} {n : Nat} {w : Word} {rest : List Word} {i : Instr}

/-- The STATUS of a response stands in the top byte (R76). -/
theorem opcField_rspWord (st : RspStatus) (v : BitVec 32) : opcField (rspWord st v) = st.code := opcField_wordOf ..

/-- `OK, 20 + n` as a word, for a byte count that `LEN` can carry (R76, R156). -/
theorem rspWord_ok_encoded (h : n ≤ Config.maxLen) :
    rspWord .ok (BitVec.ofNat 32 (20 + n)) = BitVec.ofNat 64 (20 + n) := by
  rw [Config.maxLen] at h
  exact (ofNat_eq_wordOf (by omega)).symm

/-- A response that reads `20 + n` is OK. -/
theorem code_eq_zero_of_rspWord {st : RspStatus} {v : BitVec 32} (hn : n ≤ Config.maxLen)
    (h : rspWord st v = BitVec.ofNat 64 (20 + n)) : st.code = 0x00 := by
  rw [← rspWord_ok_encoded hn] at h
  exact (opcField_rspWord st v).symm.trans ((congrArg opcField h).trans (opcField_rspWord .ok _))

/-- A command that leaves CMD: a fault or BLOCKED moves no byte of DIN or DOUT, every other answer takes its bytes (R56). -/
theorem exec_din (h : exec i s = .next t) (htaken : t.cmd ≠ s.cmd) :
    (t.fault = true ∧ t.din = s.din ∧ t.dout = s.dout) ∨
    (t.fault = false ∧ i.len ≤ s.din.length ∧ t.din = s.din.drop i.len) := by
  rcases exec_cases h with ⟨hfault, rfl⟩ | ⟨hfault, ⟨-, -, rfl⟩ |
    ⟨-, ⟨-, rfl⟩ | ⟨hlong, st, v, u, rfl, -, -, hdin, hkept, -⟩⟩⟩
  · exact .inl ⟨hfault, rfl, rfl⟩
  · exact .inl ⟨rfl, rfl, rfl⟩
  · exact absurd rfl htaken
  · exact .inr ⟨hkept.trans hfault, hlong, hdin⟩

/-- A SEG.ENC that answers `OK, 20 + n` has emitted `20 + n` bytes: BLOCKED and INVALID_ADDRESS have another STATUS. -/
theorem exec_segEnc_emits_of_ok (hn : n ≤ Config.maxLen) (h : exec (.segEnc n) s = .next t)
    (hrsp : t.rsp = s.rsp ++ [BitVec.ofNat 64 (20 + n)]) :
    ∃ emitted, t.dout = s.dout ++ emitted ∧ emitted.length = 20 + n := by
  rcases execSegEnc_next.mp h with ⟨-, rfl⟩ | ⟨-, ⟨hlong, rfl⟩ | ⟨-, rfl⟩⟩
  · have hword : rspWord .blocked 0 = BitVec.ofNat 64 (20 + n) := by simpa using hrsp
    exact absurd (code_eq_zero_of_rspWord hn hword) (by decide)
  · rcases encodeOrReject_cases n (s.din.take n) { s with din := s.din.drop n } with
      ⟨src, dst, -, -, hemit⟩ | ⟨-, hreject⟩
    · exact ⟨encodeSegment s.seg src dst n (s.din.take n), by rw [hemit]; rfl, by simp [hlong]⟩
    · have hword : rspWord .invalidAddress 0 = BitVec.ofNat 64 (20 + n) := by simpa [hreject] using hrsp
      exact absurd (code_eq_zero_of_rspWord hn hword) (by decide)
  · simp at hrsp

/-- Settles O17: a taken word runs its command or is BLOCKED; the bytes on DIN are `exec_din`, those on DOUT `exec_dout`. -/
theorem streamsMoveByExactLengths : Obligations.StreamsMoveByExactLengths := by
  intro s t w rest i hcmd hdec hstep htaken
  have hexec : exec i s = .next t := by
    cases hfault : s.fault with
    | false => exact (step_of_command hcmd hfault hdec).symm.trans hstep
    | true => rw [exec_of_fault hfault, ← step_of_fault hcmd hfault, hstep]
  have hmoved : t.cmd ≠ s.cmd := by simp [hcmd, htaken]
  have hwf : i.WellFormed := wellFormed_of_decode hdec
  refine ⟨fun hfault => ?_, fun hfault => ?_, ?_, ?_⟩
  · rcases exec_din hexec hmoved with ⟨hfault', -⟩ | ⟨-, hdin⟩
    · simp [hfault] at hfault'
    · exact hdin
  · rcases exec_din hexec hmoved with ⟨-, hkept⟩ | ⟨hfault', -⟩
    · exact hkept
    · simp [hfault] at hfault'
  · rcases exec_dout hexec with hkept | ⟨n, src, dst, rfl, hlong, rfl⟩
    · exact .inl hkept
    · exact .inr ⟨n, encodeSegment s.seg src dst n (s.din.take n), rfl, rfl, by simp [hlong],
        congrArg (s.rsp ++ [·]) (rspWord_ok_encoded hwf)⟩
  · rintro n rfl
    exact exec_segEnc_emits_of_ok hwf hexec

/-- Draining moves words from RSP to the record, and issuing and supplying leave both alone (R65). -/
theorem host_responses (x : Session) {e : HostEvent} (he : e ≠ .reset) : (x.host e).responses = x.responses := by
  cases e with
  | reset => exact absurd rfl he
  | issue | supply | drainDout => rfl
  | drainRsp k => simp [Session.host, Session.responses]

/-- Draining moves bytes from DOUT to the record, and issuing and supplying leave both alone (R65). -/
theorem host_output (x : Session) {e : HostEvent} (he : e ≠ .reset) : (x.host e).output = x.output := by
  cases e with
  | reset => exact absurd rfl he
  | issue | supply | drainRsp => rfl
  | drainDout k => simp [Session.host, Session.output]

/-- Settles O18: the host keeps the record, and a step appends one response, or nothing. -/
theorem outputsAreOnlyAppended : Obligations.OutputsAreOnlyAppended := by
  intro x y e he h
  cases e with
  | host e =>
    obtain rfl : x.host e = y := Host.Outcome.next.inj h
    have he' : e ≠ .reset := fun hreset => he (congrArg Event.host hreset)
    exact ⟨[], [], by simp [host_responses x he'], by simp, by simp [host_output x he']⟩
  | block =>
    obtain ⟨t, hstep, rfl⟩ := next_block_eq_next.mp h
    rcases step_keeps_or_takes hstep with ⟨-, rfl⟩ | ⟨-, w, rest, answer, bytes, -, -, hrsp, hdout⟩
    · exact ⟨[], [], by simp, by simp, by simp⟩
    · exact ⟨[answer], bytes, by simp [Session.responses, hrsp], by simp, by simp [Session.output, hdout]⟩

/-- Every word issued has its response or waits in CMD (R220; log entry 8). -/
def Session.Accounted (x : Session) : Prop := x.issued = x.responses.length + x.block.cmd.length

theorem accounted_start : Session.start.Accounted := rfl

/-- Issuing counts the word and queues it; the other actions leave the count, the responses and CMD alone. -/
theorem accounted_host {x : Session} (e : HostEvent) (hx : x.Accounted) : (x.host e).Accounted := by
  unfold Session.Accounted at *
  cases e with
  | reset => exact accounted_start
  | supply | drainDout => exact hx
  | issue w =>
    rw [host_responses x (by simp)]
    simp [Session.host, hx, Nat.add_assoc]
  | drainRsp k =>
    rw [host_responses x (by simp)]
    exact hx

/-- A step trades one word of CMD for one response, or changes nothing. -/
theorem accounted_step {x : Session} (hx : x.Accounted) (h : step x.block = .next t) :
    Session.Accounted { x with block := t } := by
  rcases step_keeps_or_takes h with ⟨-, rfl⟩ | ⟨-, w, rest, answer, bytes, hcmd, htaken, hrsp, -⟩
  · exact hx
  · simp only [Session.Accounted, Session.responses, hcmd, htaken, hrsp,
      List.length_append, List.length_cons, List.length_nil] at hx ⊢
    omega

/-- Settles O21: the account holds at reset, and each event keeps it. -/
theorem issuedCommandsAreAccounted : Obligations.IssuedCommandsAreAccounted := by
  refine ⟨accounted_start, fun x y e hx h => ?_⟩
  cases e with
  | host e =>
    obtain rfl : x.host e = y := Host.Outcome.next.inj h
    exact accounted_host e hx
  | block =>
    obtain ⟨t, hstep, rfl⟩ := next_block_eq_next.mp h
    exact accounted_step hx hstep

end Sys2Proof.Machine
end

section
/-! SUPPORT. 10_state.md R21 to R32: the register invariant of each command, the bits of STATUS, the values at reset, and the
obligations about them. -/

namespace Sys2Proof.Machine

variable {s t : State} {n : Nat} {i : Instr} {r : Registers} {a : Checksummer}

theorem settled_fresh : Checksummer.fresh.Settled := fun _ => rfl

/-- A byte that completes a pair clears the pending byte, and one that starts a pair leaves the parity odd (R23, R102). -/
theorem settled_addByte (a : Checksummer) (b : Byte) : (a.addByte b).Settled := by
  intro heven
  cases hodd : a.odd with
  | true => rw [a.addByte_of_odd b hodd]
  | false => simp [a.odd_addByte b, hodd] at heven

theorem settled_add (ha : a.Settled) (bytes : List Byte) : (a.add bytes).Settled := by
  induction bytes generalizing a with
  | nil => exact ha
  | cons b bytes ih => exact ih (settled_addByte a b)

/-- Past the supplied bytes an address register holds 0x00 (R30, R131). -/
theorem padded_ofBytes (h : n ≤ Config.maxLen) (bytes : List Byte) : (AddrReg.ofBytes n bytes).Padded := by
  intro k hk
  have hlen : n ≤ k.val := by simpa [AddrReg.ofBytes, toNat_ofNat_len h] using hk
  simp [AddrReg.ofBytes, Nat.not_lt.mpr hlen]

theorem padded_empty : AddrReg.empty.Padded := fun k _ => by revert k; decide

/-- A fault leaves a legal STATUS and the other registers as they were (R183). -/
theorem inv_raiseFault (hr : r.Inv) (c : FaultCause) : Registers.Inv { r with fault := true, faultCode := c.code } := by
  obtain ⟨hcs, hsrc, hdst, -⟩ := hr
  refine ⟨hcs, hsrc, hdst, .inr ⟨rfl, ?_⟩⟩
  cases c with
  | illegalCommand => exact .inl rfl
  | useAfterFinalize => exact .inr rfl

/-- A well-formed command keeps the invariant: it faults, changes no register, or writes one as the invariant asks. -/
theorem inv_exec (hwf : i.WellFormed) (hs : s.toRegisters.Inv) (h : exec i s = .next t) : t.toRegisters.Inv := by
  have ⟨hcs, hsrc, hdst, hstatus⟩ := hs
  cases i with
  | csInit =>
    rcases execCsInit_next.mp h with ⟨-, rfl⟩ | ⟨-, rfl⟩
    · exact hs
    · exact ⟨settled_fresh, hsrc, hdst, hstatus⟩
  | csAdd n =>
    rcases execCsAdd_next.mp h with ⟨-, rfl⟩ | ⟨-, ⟨-, rfl⟩ | ⟨-, ⟨-, rfl⟩ | ⟨-, rfl⟩⟩⟩
    · exact hs
    · exact inv_raiseFault hs _
    · exact ⟨settled_add hcs _, hsrc, hdst, hstatus⟩
    · exact hs
  | csFin =>
    rcases execCsFin_next.mp h with ⟨-, rfl⟩ | ⟨-, ⟨-, rfl⟩ | ⟨-, rfl⟩⟩
    · exact hs
    · exact inv_raiseFault hs _
    · exact hs
  | addrSrc n =>
    rcases execAddrSrc_next.mp h with ⟨-, rfl⟩ | ⟨-, ⟨-, rfl⟩ | ⟨-, rfl⟩⟩
    · exact hs
    · exact ⟨hcs, padded_ofBytes hwf _, hdst, hstatus⟩
    · exact hs
  | addrDst n =>
    rcases execAddrDst_next.mp h with ⟨-, rfl⟩ | ⟨-, ⟨-, rfl⟩ | ⟨-, rfl⟩⟩
    · exact hs
    · exact ⟨hcs, hsrc, padded_ofBytes hwf _, hstatus⟩
    · exact hs
  | segEnc n =>
    rcases execSegEnc_next.mp h with ⟨-, rfl⟩ | ⟨-, ⟨-, rfl⟩ | ⟨-, rfl⟩⟩
    · exact hs
    · exact (encodeOrReject_toRegisters ..).symm ▸ hs
    · exact hs
  | segNew | segSport | segDport | segSeq | segAck | segDoff | segFlags | segWin | segUrg =>
    rcases exec_segmentWrite h rfl with ⟨-, rfl⟩ | ⟨-, rfl⟩
    all_goals exact hs

/-- Settles O19: a step changes a register by a fault or by a decoded command, which is well formed. -/
theorem registerInvariantIsKept : Obligations.RegisterInvariantIsKept := by
  intro s t hs hstep
  rcases step_next.mp hstep with ⟨-, rfl⟩ | ⟨w, rest, -, ⟨-, rfl⟩ | ⟨-, r, -, rfl⟩ | ⟨-, i, hdec, hexec⟩⟩
  · exact hs
  · exact hs
  · exact inv_raiseFault hs _
  · exact inv_exec (wellFormed_of_decode hdec) hs hexec

/-- Settles O20: no byte is pending, no address is stored, and STATUS shows no fault. -/
theorem registerInvariantAtReset : Obligations.RegisterInvariantAtReset :=
  ⟨settled_fresh, padded_empty, padded_empty, .inl ⟨rfl, rfl⟩⟩

/-- Settles O22: the values stand in `State.reset`, and the reset event answers `Session.start`. -/
theorem resetLeavesTheseValues : Obligations.ResetLeavesTheseValues := by
  refine ⟨⟨rfl, rfl, rfl, rfl, ?_, rfl, ?_, rfl, rfl, rfl, rfl, rfl, rfl⟩, fun x => ⟨rfl, rfl⟩⟩
  all_goals decide

/-- Each bit of STATUS (R32). -/
theorem getLsbD_status (r : Registers) (k : Nat) :
    r.status.getLsbD k =
      if k = 0 then r.fault else if k = 1 then r.phase.bit.getLsbD 0 else if k < 8 then false
      else r.faultCode.getLsbD (k - 8) := by
  change BitVec.getLsbD (w := 8 + 6 + 1 + 1) (r.faultCode ++ 0#6 ++ r.phase.bit ++ BitVec.ofBool r.fault) k = _
  rw [BitVec.getLsbD_append, BitVec.getLsbD_append, BitVec.getLsbD_append]
  obtain rfl | rfl | h2 : k = 0 ∨ k = 1 ∨ 2 ≤ k := by omega
  · simp
  · simp
  · have hsub : k - 1 - 1 - 6 = k - 8 := by omega
    have hlt : k - 1 - 1 < 6 ↔ k < 8 := by omega
    have h0 : k ≠ 0 := by omega
    have h1 : k ≠ 1 := by omega
    have h1' : ¬ k - 1 < 1 := by omega
    simp [hsub, hlt, h0, h1, h1']

/-- Settles O24: each claim reads bits of STATUS. -/
theorem statusRegisterLayout : Obligations.StatusRegisterLayout := by
  refine ⟨fun r => ⟨getLsbD_status r 0, ?_, ?_, ?_⟩, by decide⟩
  · rw [getLsbD_status]
    cases r.phase <;> simp [Phase.bit]
  · apply BitVec.eq_of_getLsbD_eq
    intro k hk
    have h0 : 2 + k ≠ 0 := by omega
    have h1 : 2 + k ≠ 1 := by omega
    have h8 : 2 + k < 8 := by omega
    simp [getLsbD_status, h1, h8]
  · apply BitVec.eq_of_getLsbD_eq
    intro k hk
    have h1 : 8 + k ≠ 1 := by omega
    simp [getLsbD_status, hk, h1]

/-- Settles O56: a step that changes the phase runs a command, and `exec_phase` leaves the two. -/
theorem phaseMovesOnlyByInitAndFin : Obligations.PhaseMovesOnlyByInitAndFin := by
  intro s t hstep hne
  obtain ⟨w, rest, i, hcmd, hdec, hexec⟩ := exists_exec_of_step_phase_ne hstep hne.symm
  refine ⟨w, rest, hcmd, ?_⟩
  rcases exec_phase hexec with hkept | ⟨rfl, hopened⟩ | ⟨rfl, hopened, -⟩
  · exact absurd hkept.symm hne
  · refine .inr ⟨?_, hdec⟩
    cases hphase : s.phase with
    | opened => exact absurd (hphase.trans hopened.symm) hne
    | finalized => rfl
  · exact .inl ⟨hopened, hdec⟩

/-- What a command other than CS.ADD and CS.FIN makes of the registers, given the bytes it takes (20_memory.md R57). -/
def registerEffect (bytes : List Byte) (r : Registers) : Instr → Registers
  | .csInit => { r with cs := .fresh, phase := .opened }
  | .addrSrc n => { r with srcAddr := AddrReg.ofBytes n (bytes.take n) }
  | .addrDst n => { r with dstAddr := AddrReg.ofBytes n (bytes.take n) }
  | i => { r with seg := ((segmentWrite i).getD id) r.seg }

/-- Every such effect overwrites what it writes, from the bytes alone. -/
theorem registerEffect_idem (bytes : List Byte) (r : Registers) (i : Instr) :
    registerEffect bytes (registerEffect bytes r i) i = registerEffect bytes r i := by
  cases i <;> rfl

theorem registerEffect_fault (bytes : List Byte) (r : Registers) (i : Instr) :
    (registerEffect bytes r i).fault = r.fault := by
  cases i <;> rfl

/-- Outside the fault state and with its bytes on DIN, a command has its effect on the registers. -/
theorem toRegisters_of_enough (hadd : ∀ n, i ≠ .csAdd n) (hfin : i ≠ .csFin) (hfault : s.fault = false)
    (hlong : i.len ≤ s.din.length) (h : exec i s = .next t) : t.toRegisters = registerEffect s.din s.toRegisters i := by
  have hnext {u : State} (hu : exec i s = .next u) : t = u := next_eq_next.mp (hu.symm.trans h)
  cases i with
  | csAdd n => exact absurd rfl (hadd n)
  | csFin => exact absurd rfl hfin
  | csInit =>
    rw [hnext (execCsInit_next.mpr (.inr ⟨hfault, rfl⟩))]
    rfl
  | addrSrc n =>
    rw [hnext (execAddrSrc_next.mpr (.inr ⟨hfault, .inl ⟨hlong, rfl⟩⟩))]
    rfl
  | addrDst n =>
    rw [hnext (execAddrDst_next.mpr (.inr ⟨hfault, .inl ⟨hlong, rfl⟩⟩))]
    rfl
  | segEnc n =>
    rw [hnext (execSegEnc_next.mpr (.inr ⟨hfault, .inl ⟨hlong, rfl⟩⟩)), encodeOrReject_toRegisters]
    rfl
  | segNew | segSport | segDport | segSeq | segAck | segDoff | segFlags | segWin | segUrg =>
    rcases exec_segmentWrite h rfl with ⟨hblocked, -⟩ | ⟨-, rfl⟩
    · simp [hfault] at hblocked
    · rfl

/-- The registers after a command other than CS.ADD and CS.FIN, in every state. -/
theorem exec_toRegisters (hadd : ∀ n, i ≠ .csAdd n) (hfin : i ≠ .csFin) (h : exec i s = .next t) :
    t.toRegisters =
      if s.fault = true ∨ s.din.length < i.len then s.toRegisters else registerEffect s.din s.toRegisters i := by
  have hpass : ¬ (i.NeedsOpen ∧ s.phase = .finalized) := by
    rintro ⟨rfl | ⟨n, rfl⟩, -⟩
    · exact hfin rfl
    · exact hadd n rfl
  have hnext {u : State} (hu : exec i s = .next u) : t = u := next_eq_next.mp (hu.symm.trans h)
  cases hfault : s.fault with
  | true => simp [hnext (exec_of_fault hfault)]
  | false =>
    rcases Nat.lt_or_ge s.din.length i.len with hshort | hlong
    · simp [hnext (exec_of_short hfault hpass hshort), hshort]
    · simpa [Nat.not_lt.mpr hlong] using toRegisters_of_enough hadd hfin hfault hlong h

/-- Settles O57: the second time the same branch is taken, as FAULT and DIN are the same, and its effect is idempotent. -/
theorem registerEffectIsIdempotent : Obligations.RegisterEffectIsIdempotent := by
  intro i s t u hadd hfin ht hu
  have honce := exec_toRegisters hadd hfin ht
  have htwice := exec_toRegisters hadd hfin hu
  split_ifs at honce with hstop
  · have hfault : t.fault = s.fault := congrArg Registers.fault honce
    rwa [if_pos (by simpa [hfault] using hstop)] at htwice
  · have hfault : t.fault = s.fault := (congrArg Registers.fault honce).trans (registerEffect_fault ..)
    rw [if_neg (by simpa [hfault] using hstop)] at htwice
    calc u.toRegisters
      _ = registerEffect s.din t.toRegisters i := htwice
      _ = t.toRegisters := by rw [honce, registerEffect_idem]

end Sys2Proof.Machine
end

section
/-! SUPPORT. 40_checksum.md R103 to R106: `fold` as arithmetic, the sum of a byte stream and its bounds, what a Checksummer holds
after a stream, and the obligations about the values of a checksum. -/

namespace Sys2Proof.Machine

variable {s : BitVec 32} {a : Checksummer} {k : Nat} {xs ys : List Byte}

theorem foldLoop_zero : foldLoop 0 s = s := rfl

theorem foldLoop_succ : foldLoop (k + 1) s = if s.toNat > 0xFFFF then foldLoop k (foldOnce s) else s := rfl

/-- One pass adds the high half into the low half and cannot overflow (R104). -/
theorem toNat_foldOnce (s : BitVec 32) : (foldOnce s).toNat = s.toNat / 65536 + s.toNat % 65536 := by
  have hs := s.isLt
  have hmask : (s &&& 0xFFFF).toNat = s.toNat % 65536 := Nat.and_two_pow_sub_one_eq_mod s.toNat 16
  rw [foldOnce, BitVec.toNat_add, hmask, BitVec.toNat_ushiftRight, Nat.shiftRight_eq_div_pow]
  omega

/-- `fold` keeps the value mod 65535, in 1 to 65535 where it is not 0 (R104). -/
theorem toNat_fold (s : BitVec 32) : (fold s).toNat = if s.toNat = 0 then 0 else (s.toNat - 1) % 65535 + 1 := by
  have hs := s.isLt
  have h1 := toNat_foldOnce s
  have h2 := toNat_foldOnce (foldOnce s)
  rw [fold, foldLoop_succ, foldLoop_succ, foldLoop_zero]
  split_ifs <;> omega

theorem toNat_fold_le (s : BitVec 32) : (fold s).toNat ≤ 65535 := by
  rw [toNat_fold]
  split_ifs <;> omega

/-- Settles O28: each clause is one about `toNat_fold`, and one more pass keeps the value mod 65535. -/
theorem foldIsTheLoop : Obligations.FoldIsTheLoop := by
  refine fun s => ⟨BitVec.eq_of_toNat_eq ?_, toNat_fold_le s, fun h => ?_, rfl⟩
  · split_ifs with h
    · have hpass := toNat_foldOnce s
      change _ = (fold (foldOnce s)).toNat
      rw [toNat_fold, toNat_fold]
      split_ifs <;> omega
    · rw [toNat_fold]
      split_ifs <;> omega
  · rw [toNat_fold]
    split_ifs <;> omega

/-- The complement of the folded sum, as a number (R103). -/
theorem toNat_complementOfFold (k : Nat) :
    (complementOfFold k).toNat = 65535 - (fold (BitVec.ofNat 32 k)).toNat := by
  have hle := toNat_fold_le (BitVec.ofNat 32 k)
  rw [complementOfFold, BitVec.toNat_setWidth, BitVec.toNat_not]
  omega

theorem finalize_eq_complementOfFold : a.finalize = complementOfFold a.total.toNat := by
  rw [complementOfFold, BitVec.ofNat_toNat, BitVec.setWidth_eq]
  rfl

theorem toNat_finalize : a.finalize.toNat = 65535 - (fold a.total).toNat := by
  rw [finalize_eq_complementOfFold, toNat_complementOfFold, BitVec.ofNat_toNat, BitVec.setWidth_eq]

/-- The parity after a chunk (R24, R102). -/
theorem odd_add : (a.add xs).odd = (a.odd ^^ decide (xs.length % 2 = 1)) := by
  induction xs generalizing a with
  | nil => simp
  | cons b xs ih =>
    rw [Checksummer.add_cons, ih, Checksummer.odd_addByte]
    rcases Nat.mod_two_eq_zero_or_one xs.length with h | h <;> simp [h, Nat.add_mod]

/-- Two bytes on an even parity are one little-endian pair (R102). -/
theorem addByte_addByte_of_even (h : a.odd = false) (lo hi : Byte) :
    (a.addByte lo).addByte hi =
      { runningSum := a.runningSum + (zext32 lo + zext32 hi * 256), pendingOddByte := 0x00
        totalBytesSeen := a.totalBytesSeen + 1 + 1 } := by
  have hodd : (a.addByte lo).odd = true := by simp [a.odd_addByte lo, h]
  rw [Checksummer.addByte_of_odd _ _ hodd, a.addByte_of_even lo h]

theorem ofNat_pair (lo hi : Byte) : BitVec.ofNat 32 (lo.toNat + 256 * hi.toNat) = zext32 lo + zext32 hi * 256 := by
  apply BitVec.eq_of_toNat_eq
  have hlo := lo.isLt
  have hhi := hi.isLt
  simp [zext32]
  omega

/-- A chunk on an even parity adds its stream sum to the total (R105). -/
theorem total_add_of_even (h : a.odd = false) : (a.add xs).total = a.runningSum + BitVec.ofNat 32 (streamSum xs) := by
  induction xs using streamSum.induct generalizing a with
  | case1 lo hi rest ih =>
    have heven : ((a.addByte lo).addByte hi).odd = false := by simp [Checksummer.odd_addByte, h]
    rw [Checksummer.add_cons, Checksummer.add_cons, ih heven, addByte_addByte_of_even h, streamSum,
      BitVec.ofNat_add, ofNat_pair, BitVec.add_assoc]
  | case2 last =>
    have hodd : (a.addByte last).odd = true := by simp [Checksummer.odd_addByte, h]
    rw [Checksummer.add_cons, Checksummer.add_nil, Checksummer.total, if_pos hodd, a.addByte_of_even last h]
    simp [streamSum, zext32]
  | case3 => simp [Checksummer.total, h, streamSum]

theorem total_fresh_add : (Checksummer.fresh.add xs).total = BitVec.ofNat 32 (streamSum xs) := by
  rw [total_add_of_even Checksummer.odd_fresh]
  exact BitVec.zero_add _

/-- One chunk from a fresh Checksummer answers the closed form (R105). -/
theorem finalize_fresh_add : (Checksummer.fresh.add xs).finalize = closedForm xs := by
  rw [closedForm, complementOfFold, ← total_fresh_add]
  rfl

/-- Chunks add up to their concatenation (10_state.md R26). -/
theorem foldl_add (chunks : List (List Byte)) : chunks.foldl Checksummer.add a = a.add chunks.flatten :=
  List.foldl_flatten.symm

/-- Settles O29: the chunks add up to one, and one chunk answers the closed form. -/
theorem checksumHasClosedForm : Obligations.ChecksumHasClosedForm := fun chunks => by
  rw [foldl_add, finalize_fresh_add]

/-- Settles O46: the three parts are added one after the other to a fresh accumulator. -/
theorem segmentChecksumHasClosedForm : Obligations.SegmentChecksumHasClosedForm := fun ph h p => by
  rw [checksumOfSegment, ← Checksummer.add_append, ← Checksummer.add_append, finalize_fresh_add, List.append_assoc]

/-- An even number of bytes ends at a pair, so what follows is summed as a stream of its own. -/
theorem streamSum_append_of_even (h : xs.length % 2 = 0) : streamSum (xs ++ ys) = streamSum xs + streamSum ys := by
  induction xs using streamSum.induct with
  | case1 lo hi rest ih =>
    have hrest : rest.length % 2 = 0 := by
      simp only [List.length_cons] at h
      omega
    simp only [List.cons_append, streamSum, ih hrest, Nat.add_assoc]
  | case2 last => simp at h
  | case3 => simp [streamSum]

/-- Each pair adds at most 65,535 (R109). -/
theorem streamSum_le (xs : List Byte) : streamSum xs ≤ 65535 * ((xs.length + 1) / 2) := by
  induction xs using streamSum.induct with
  | case1 lo hi rest ih =>
    have hlo := lo.isLt
    have hhi := hi.isLt
    simp only [streamSum, List.length_cons]
    omega
  | case2 last =>
    have hlast := last.isLt
    simp only [streamSum, List.length_cons, List.length_nil]
    omega
  | case3 => simp [streamSum]

/-- Up to 131,074 bytes the sum fits 32 bits (R109). -/
theorem streamSum_lt (h : xs.length ≤ 131074) : streamSum xs < 2 ^ 32 := by
  have hle := streamSum_le xs
  omega

theorem toNat_total_fresh_add (h : xs.length ≤ 131074) : (Checksummer.fresh.add xs).total.toNat = streamSum xs := by
  rw [total_fresh_add, BitVec.toNat_ofNat, Nat.mod_eq_of_lt (streamSum_lt h)]

theorem streamSum_replicate_zero (k : Nat) : streamSum (List.replicate k 0x00) = 0 := by
  induction k using Nat.twoStepInduction with
  | zero => rfl
  | one => rfl
  | more k ih _ => simpa [List.replicate_succ, streamSum] using ih

theorem streamSum_replicate_ff (k : Nat) : streamSum (List.replicate (2 * k) 0xff) = 65535 * k := by
  induction k with
  | zero => rfl
  | succ k ih =>
    have hpair : List.replicate (2 * (k + 1)) (0xff : Byte) = 0xff :: 0xff :: List.replicate (2 * k) 0xff := rfl
    rw [hpair, streamSum, ih]
    simp
    omega

theorem runningSum_replicate_ff (k : Nat) :
    (Checksummer.fresh.add (List.replicate (2 * k) 0xff)).runningSum = BitVec.ofNat 32 (65535 * k) := by
  have heven : (Checksummer.fresh.add (List.replicate (2 * k) 0xff)).odd = false := by simp [odd_add]
  rw [← streamSum_replicate_ff, ← total_fresh_add, Checksummer.total, heven]
  rfl

theorem finalize_replicate_ff (k : Nat) :
    (Checksummer.fresh.add (List.replicate (2 * k) 0xff)).finalize = complementOfFold (65535 * k) := by
  rw [finalize_fresh_add, closedForm, streamSum_replicate_ff]

/-- Settles O32: a value of `finalize` is the complement of a value of `fold`, which is 0 at 0 only. -/
theorem checksumBoundaryValues : Obligations.ChecksumBoundaryValues := by
  refine ⟨fun k => ?_, fun a => ?_, fun a => ?_, by decide⟩
  · rw [finalize_fresh_add, closedForm, streamSum_replicate_zero]
    rfl
  · rw [BitVec.toNat_eq, BitVec.toNat_eq, toNat_finalize, toNat_fold]
    split_ifs with h
    · simp [h]
    · simp [h]
      omega
  · have hle := toNat_fold_le a.total
    rw [BitVec.toNat_eq, BitVec.toNat_eq, toNat_finalize]
    simp
    omega

/-- Settles O33: `streamSum_le` at the bound; past it the sum of 65,538 pairs `ff ff` passes `2^32`. -/
theorem accumulatorWrapsOnlyPastBound : Obligations.AccumulatorWrapsOnlyPastBound := by
  refine ⟨fun stream h => ⟨streamSum_lt h, toNat_total_fresh_add h⟩, ?_, ?_⟩
  · exact (runningSum_replicate_ff 65537).trans (by decide)
  · exact (finalize_replicate_ff 65538).trans (by decide)

end Sys2Proof.Machine
end

section
/-! SUPPORT. 40_checksum.md R110: the big-endian sum of a stream against the little-endian one, and the obligation about the
checksum on the wire. -/

namespace Sys2Proof.Machine

variable {xs : List Byte}

/-- Mod 65535 the big-endian sum is 256 times the little-endian one, as `256 * 256` is 1 (R110). -/
theorem streamSumBig_mod (xs : List Byte) : streamSumBig xs % 65535 = 256 * streamSum xs % 65535 := by
  induction xs using streamSum.induct with
  | case1 lo hi rest ih =>
    simp only [streamSum, streamSumBig]
    omega
  | case2 last => simp [streamSum, streamSumBig]
  | case3 => simp [streamSum, streamSumBig]

/-- Both sums are 0 for a stream of zero bytes only. -/
theorem streamSumBig_eq_zero_iff (xs : List Byte) : streamSumBig xs = 0 ↔ streamSum xs = 0 := by
  induction xs using streamSum.induct with
  | case1 lo hi rest ih =>
    simp only [streamSum, streamSumBig]
    omega
  | case2 last => simp [streamSum, streamSumBig]
  | case3 => simp [streamSum, streamSumBig]

/-- Each pair adds at most 65,535 to the big-endian sum too. -/
theorem streamSumBig_le (xs : List Byte) : streamSumBig xs ≤ 65535 * ((xs.length + 1) / 2) := by
  induction xs using streamSum.induct with
  | case1 lo hi rest ih =>
    have hlo := lo.isLt
    have hhi := hi.isLt
    simp only [streamSumBig, List.length_cons]
    omega
  | case2 last =>
    have hlast := last.isLt
    simp only [streamSumBig, List.length_cons, List.length_nil]
    omega
  | case3 => simp [streamSumBig]

/-- The two bytes of a 16-bit value in the other order. -/
theorem toNat_swapBytes (c : BitVec 16) :
    (c.extractLsb' 0 8 ++ c.extractLsb' 8 8).toNat = 256 * (c.toNat % 256) + c.toNat / 256 := by
  have hc := c.isLt
  rw [BitVec.toNat_append, BitVec.extractLsb'_toNat, BitVec.extractLsb'_toNat,
    Nat.shiftLeft_eq, Nat.shiftRight_eq_div_pow, Nat.shiftRight_eq_div_pow, Nat.mul_comm]
  rw [← Nat.two_pow_add_eq_or_of_lt (by omega)]
  omega

/-- Settles O34: byte order and complement commute, and of the values 0 to 65,535 only 0 and 65,535 are equal mod 65535, which
`streamSumBig_eq_zero_iff` tells apart. -/
theorem wireChecksumIsStandard : Obligations.WireChecksumIsStandard := by
  intro stream h
  have hsmall := streamSum_lt h
  have hbig : streamSumBig stream < 2 ^ 32 := by
    have hle := streamSumBig_le stream
    omega
  have hmod := streamSumBig_mod stream
  have hzero := streamSumBig_eq_zero_iff stream
  apply BitVec.eq_of_toNat_eq
  rw [toNat_swapBytes, toNat_complementOfFold, toNat_finalize, toNat_fold, toNat_fold, toNat_total_fresh_add h,
    BitVec.toNat_ofNat, Nat.mod_eq_of_lt hbig]
  generalize streamSum stream = little at *
  generalize streamSumBig stream = big at *
  split_ifs <;> omega

end Sys2Proof.Machine
end

section
/-! SUPPORT. 40_checksum.md R102 and R103, 41_segment_fields.md R131 and R132: the commands that take bytes from DIN or answer a
value, and the obligations about CS.ADD, CS.FIN, the address commands and their frames. -/

namespace Sys2Proof.Machine

variable {s t : State} {n : Nat} {i : Instr}

/-- With its bytes on DIN and the unit OPEN, CS.ADD adds them to the stream (R102). -/
theorem exec_csAdd_of_enough (hfault : s.fault = false) (hphase : s.phase = .opened) (hdin : n ≤ s.din.length) :
    exec (.csAdd n) s = .next (respond .ok 0 { s with cs := s.cs.add (s.din.take n), din := s.din.drop n }) :=
  execCsAdd_next.mpr (.inr ⟨hfault, .inr ⟨hphase, .inl ⟨hdin, rfl⟩⟩⟩)

/-- With the unit OPEN, CS.FIN answers the checksum (R103). -/
theorem exec_csFin_of_opened (hfault : s.fault = false) (hphase : s.phase = .opened) :
    exec .csFin s = .next (respond .ok (s.cs.finalize.setWidth 32) { s with phase := .finalized }) :=
  execCsFin_next.mpr (.inr ⟨hfault, .inr ⟨hphase, rfl⟩⟩)

/-- Settles O26: the command is `exec_csAdd_of_enough`, each byte of the chunk `addByte_of_odd` or `addByte_of_even`. -/
theorem csAddAppendsItsChunk : Obligations.CsAddAppendsItsChunk := by
  refine ⟨fun n => rfl, fun s n hfault hphase hdin => exec_csAdd_of_enough hfault hphase hdin,
    fun s n hfault hphase => (useAfterFinalizeFaults s hfault hphase).1 n, Checksummer.add_nil,
    fun a b rest hodd => ?_, fun a b rest heven => ?_⟩
  · rw [Checksummer.add_cons, a.addByte_of_odd b hodd, zext32, zext32, BitVec.add_assoc]
  · rw [Checksummer.add_cons, a.addByte_of_even b heven]

/-- Widening the low 16 bits of a value to 32 masks it. -/
theorem setWidth_setWidth_16 (v : BitVec 32) : (v.setWidth 16).setWidth 32 = v &&& 0xFFFF := by
  apply BitVec.eq_of_toNat_eq
  have hmask : (v &&& 0xFFFF).toNat = v.toNat % 65536 := Nat.and_two_pow_sub_one_eq_mod v.toNat 16
  rw [hmask, BitVec.toNat_setWidth, BitVec.toNat_setWidth]
  omega

/-- Settles O27: the response carries `finalize`, widened. -/
theorem csFinAnswersTheChecksum : Obligations.CsFinAnswersTheChecksum := by
  refine ⟨by decide, fun s hfault hphase => ?_, fun s hfault hphase => (useAfterFinalizeFaults s hfault hphase).2⟩
  rw [exec_csFin_of_opened hfault hphase, Checksummer.finalize, setWidth_setWidth_16]
  rfl

theorem exec_addrSrc_of_enough (hfault : s.fault = false) (hdin : n ≤ s.din.length) :
    exec (.addrSrc n) s =
      .next (respond .ok 0 { s with srcAddr := AddrReg.ofBytes n (s.din.take n), din := s.din.drop n }) :=
  execAddrSrc_next.mpr (.inr ⟨hfault, .inl ⟨hdin, rfl⟩⟩)

theorem exec_addrDst_of_enough (hfault : s.fault = false) (hdin : n ≤ s.din.length) :
    exec (.addrDst n) s =
      .next (respond .ok 0 { s with dstAddr := AddrReg.ofBytes n (s.din.take n), din := s.din.drop n }) :=
  execAddrDst_next.mpr (.inr ⟨hfault, .inl ⟨hdin, rfl⟩⟩)

/-- The bytes of an address register that takes `n` bytes from a longer list (R131). -/
theorem getElem_ofBytes_take (bytes : List Byte) (k : Fin 16) :
    (AddrReg.ofBytes n (bytes.take n)).bytes[k] = if k.val < n then bytes.getD k.val 0 else 0 := by
  simp only [AddrReg.ofBytes, Fin.getElem_fin, Vector.getElem_ofFn]
  split_ifs with h
  · simp [List.getD_eq_getElem?_getD, h]
  · rfl

/-- Settles O40: the register is `AddrReg.ofBytes` of the bytes taken. -/
theorem addressWritesKeepSixteenBytes : Obligations.AddressWritesKeepSixteenBytes := by
  refine ⟨fun n => ⟨rfl, rfl⟩, fun s n hfault hmax hdin => ?_⟩
  exact ⟨AddrReg.ofBytes n (s.din.take n), toNat_ofNat_len hmax, getElem_ofBytes_take s.din,
    exec_addrSrc_of_enough hfault hdin, exec_addrDst_of_enough hfault hdin⟩

/-- A field write changes the segment only, and CMD and RSP by its response. -/
theorem exec_segmentWrite_frame {f : TcpSegment → TcpSegment} (h : exec i s = .next t) (hf : segmentWrite i = some f) :
    { t with seg := s.seg, cmd := s.cmd, rsp := s.rsp } = s := by
  rcases exec_segmentWrite h hf with ⟨-, rfl⟩ | ⟨-, rfl⟩
  · rfl
  · rfl

/-- Settles O41: the frame of a field write, and for an address command the state written out in each way it answers. -/
theorem segmentCommandsKeepTheRest : Obligations.SegmentCommandsKeepTheRest := by
  refine fun i s t h => ⟨fun hi => ?_, ?_, ?_⟩
  · rcases hi with rfl | ⟨v, rfl | rfl | rfl | rfl | rfl | rfl | rfl | rfl⟩
    all_goals exact exec_segmentWrite_frame h rfl
  · rintro n rfl
    rcases execAddrSrc_next.mp h with ⟨-, rfl⟩ | ⟨-, ⟨-, rfl⟩ | ⟨-, rfl⟩⟩
    all_goals rfl
  · rintro n rfl
    rcases execAddrDst_next.mp h with ⟨-, rfl⟩ | ⟨-, ⟨-, rfl⟩ | ⟨-, rfl⟩⟩
    all_goals rfl

end Sys2Proof.Machine
end

section
/-! SUPPORT. 42_segment_encode.md R153 to R159: the bytes of the pseudo-header and of the injected header, the sum of an emitted
segment, and the obligations about SEG.ENC. -/

namespace Sys2Proof.Machine

variable {s t : State} {n : Nat} {c : BitVec 16} {g : TcpSegment}

/-- The two bytes of a 16-bit number, the high one first (00_scope.md R10). -/
theorem be16_ofNat (k : Nat) :
    be16 (BitVec.ofNat 16 k) = [BitVec.ofNat 8 (k % 2 ^ 16 / 256), BitVec.ofNat 8 (k % 2 ^ 16 % 256)] := by
  have hhigh : (BitVec.ofNat 16 k).extractLsb' 8 8 = BitVec.ofNat 8 (k % 2 ^ 16 / 256) := by
    apply BitVec.eq_of_toNat_eq
    simp only [BitVec.extractLsb'_toNat, BitVec.toNat_ofNat, Nat.shiftRight_eq_div_pow]
  have hlow : (BitVec.ofNat 16 k).extractLsb' 0 8 = BitVec.ofNat 8 (k % 2 ^ 16 % 256) := by
    apply BitVec.eq_of_toNat_eq
    simp only [BitVec.extractLsb'_toNat, BitVec.toNat_ofNat, Nat.shiftRight_zero]
    omega
  rw [be16, hhigh, hlow]

/-- Settles O45: the length field is `be16_ofNat`, the other bytes are written out in `pseudoHeader`. -/
theorem pseudoHeaderHasThisLayout : Obligations.PseudoHeaderHasThisLayout := fun src dst n => by
  rw [pseudoHeader, be16_ofNat]
  rfl

/-- Settles O47: two writes at two offsets of a list that holds both. -/
theorem injectorWritesLowByteFirst : Obligations.InjectorWritesLowByteFirst := by
  refine fun c h hlen => ⟨?_, ?_, length_injectChecksum, fun k h16 h17 => ?_⟩
  · have h16 : 16 < h.length := by omega
    rw [injectChecksum, List.getElem?_set_ne (by decide), List.getElem?_set_self h16]
  · rw [injectChecksum, List.getElem?_set_self (by simp; omega)]
  · rw [injectChecksum, List.getElem?_set_ne (Ne.symm h17), List.getElem?_set_ne (Ne.symm h16)]

/-- Settles O48: the two ways in which SEG.ENC ends once it has its payload. -/
theorem segEncEmitsTheSegment : Obligations.SegEncEmitsTheSegment :=
  ⟨fun _ => rfl, fun _ _ _ _ hfault hdin hsrc hdst => exec_segEnc_of_valid hfault hdin hsrc hdst,
    fun _ _ hfault hdin hinvalid => exec_segEnc_of_invalid hfault hdin hinvalid⟩

/-- What SEG.ENC does to the registers and the queues, once its payload is taken (R156). -/
theorem encodeOrReject_frame (n : Nat) (p : List Byte) (s : State) :
    ∃ st v bytes, encodeOrReject n p s = respond st v (emitDout bytes s) := by
  rcases encodeOrReject_cases n p s with ⟨src, dst, -, -, hemit⟩ | ⟨-, hreject⟩
  · exact ⟨_, _, _, hemit⟩
  · exact ⟨_, _, [], by rw [hreject, emitDout, List.append_nil]⟩

/-- Settles O51: BLOCKED, a hold, or one response and bytes appended to DOUT with the payload off DIN. -/
theorem segEncWritesNoRegister : Obligations.SegEncWritesNoRegister := by
  intro s t n h
  rcases execSegEnc_next.mp h with ⟨-, rfl⟩ | ⟨-, ⟨-, rfl⟩ | ⟨-, rfl⟩⟩
  · exact ⟨rfl, ⟨[], by simp⟩, ⟨0, rfl⟩, ⟨_, rfl⟩, .inr rfl⟩
  · obtain ⟨st, v, bytes, hend⟩ := encodeOrReject_frame n (s.din.take n) { s with din := s.din.drop n }
    rw [hend]
    exact ⟨rfl, ⟨bytes, rfl⟩, ⟨n, rfl⟩, ⟨_, rfl⟩, .inr rfl⟩
  · exact ⟨rfl, ⟨[], by simp⟩, ⟨0, rfl⟩, ⟨[], by simp⟩, .inl rfl⟩

/-- Neither address resolution nor the encoding reads S0 to S3 (10_state.md R31). -/
theorem encodeOrReject_checksumUnit (n : Nat) (p : List Byte) (s : State) (c : Checksummer) (ph : Phase) :
    encodeOrReject n p { s with cs := c, phase := ph } = { encodeOrReject n p s with cs := c, phase := ph } := by
  unfold encodeOrReject
  cases resolve4 Config.v4MappedAccept s.srcAddr <;> cases resolve4 Config.v4MappedAccept s.dstAddr <;> rfl

/-- Settles O55: the checks of SEG.ENC do not read S0 to S3 either. -/
theorem encodeIgnoresChecksumUnit : Obligations.EncodeIgnoresChecksumUnit := by
  intro s t n c ph h
  refine execSegEnc_next.mpr ?_
  rcases execSegEnc_next.mp h with ⟨hfault, rfl⟩ | ⟨hfault, ⟨hlong, rfl⟩ | ⟨hshort, rfl⟩⟩
  · exact .inl ⟨hfault, rfl⟩
  · exact .inr ⟨hfault, .inl ⟨hlong, (encodeOrReject_checksumUnit n _ { s with din := s.din.drop n } c ph).symm⟩⟩
  · exact .inr ⟨hfault, .inr ⟨hshort, rfl⟩⟩

/-- The header around its checksum field (R151). -/
theorem header_eq_append (g : TcpSegment) : header g = (header g).take 16 ++ [0x00, 0x00] ++ (header g).drop 18 := rfl

theorem injectChecksum_header (c : BitVec 16) (g : TcpSegment) :
    injectChecksum c (header g) =
      (header g).take 16 ++ [c.extractLsb' 0 8, c.extractLsb' 8 8] ++ (header g).drop 18 := rfl

@[simp] theorem length_pseudoHeader (src dst : Ipv4) (n : Nat) : (pseudoHeader src dst n).length = 12 := rfl

/-- The two bytes of a value are a little-endian pair of that sum. -/
theorem streamSum_pair (c : BitVec 16) (xs : List Byte) :
    streamSum (c.extractLsb' 0 8 :: c.extractLsb' 8 8 :: xs) = c.toNat + streamSum xs := by
  have hc := c.isLt
  simp only [streamSum, BitVec.extractLsb'_toNat, Nat.shiftRight_eq_div_pow]
  omega

/-- Behind an even number of bytes, the injected checksum adds its value to the sum, the zero field nothing (R155, R159). -/
theorem streamSum_injectChecksum {ph : List Byte} (hph : ph.length % 2 = 0) (c : BitVec 16) (g : TcpSegment)
    (p : List Byte) :
    streamSum (ph ++ (injectChecksum c (header g) ++ p)) = streamSum (ph ++ header g ++ p) + c.toNat := by
  have hlead : (ph ++ (header g).take 16).length % 2 = 0 := by simp [hph, Nat.add_mod]
  rw [injectChecksum_header]
  nth_rw 3 [header_eq_append]
  simp only [List.append_assoc, List.cons_append, List.nil_append]
  rw [← List.append_assoc, streamSum_append_of_even hlead, streamSum_pair, ← List.append_assoc ph,
    streamSum_append_of_even hlead]
  simp [streamSum]
  omega

/-- A stream whose sum is positive, fits 32 bits and is 0 mod 65535 answers 0x0000 (R108). -/
theorem closedForm_eq_zero {xs : List Byte} (hlen : xs.length ≤ 131074) (hpos : 0 < streamSum xs)
    (hmod : streamSum xs % 65535 = 0) : closedForm xs = 0x0000 := by
  apply BitVec.eq_of_toNat_eq
  rw [closedForm, toNat_complementOfFold, toNat_fold, BitVec.toNat_ofNat, Nat.mod_eq_of_lt (streamSum_lt hlen),
    if_neg (by omega)]
  simp
  omega

/-- The checksum of a segment completes its sum to a positive multiple of 65535 (R159). -/
theorem streamSum_add_closedForm {xs : List Byte} (hlen : xs.length ≤ 131074) :
    0 < streamSum xs + (closedForm xs).toNat ∧ (streamSum xs + (closedForm xs).toNat) % 65535 = 0 := by
  rw [closedForm, toNat_complementOfFold, toNat_fold, BitVec.toNat_ofNat, Nat.mod_eq_of_lt (streamSum_lt hlen)]
  split_ifs <;> omega

/-- Settles O53: the emitted segment's sum is that of the segment with a zero checksum field, plus the checksum. -/
theorem emittedSegmentVerifies : Obligations.EmittedSegmentVerifies := by
  intro s n src dst hfault hdin hbound hsrc hdst
  refine ⟨_, encodeSegment s.seg src dst n (s.din.take n), exec_segEnc_of_valid hfault hdin hsrc hdst, rfl, ?_⟩
  have hpayload : (s.din.take n).length = n := List.length_take_of_le hdin
  have hsum := streamSum_injectChecksum (ph := pseudoHeader src dst n) (by simp)
    (closedForm (pseudoHeader src dst n ++ header s.seg ++ s.din.take n)) s.seg (s.din.take n)
  obtain ⟨hpos, hmod⟩ := streamSum_add_closedForm (xs := pseudoHeader src dst n ++ header s.seg ++ s.din.take n)
    (by simp only [List.length_append, length_pseudoHeader, length_header, hpayload]; omega)
  rw [finalize_fresh_add, encodeSegment, segmentChecksumHasClosedForm]
  refine closedForm_eq_zero ?_ ?_ ?_
  · simp only [List.length_append, length_pseudoHeader, length_injectChecksum, length_header, hpayload]
    omega
  · rw [hsum]
    exact hpos
  · rw [hsum]
    exact hmod

end Sys2Proof.Machine
end

section
/-! SUPPORT. Runs of the block: one CS.ADD per chunk, a whole computation, SEG.ENC twice, and the obligations about them
(40_checksum.md R106 and R107, 42_segment_encode.md R158). -/

namespace Sys2Proof.Machine

variable {s : State} {i : Instr} {rest later : List Word} {more : List Byte} {chunks : List (List Byte)}

/-- The word of a well-formed command at the head of CMD runs as that command. -/
theorem step_of_encode (hcmd : s.cmd = encode i :: rest) (hfault : s.fault = false) (hwf : i.WellFormed) :
    step s = exec i s :=
  step_of_command hcmd hfault (decode_encode hwf)

/-- The state once the chunks are added: their words off CMD, their bytes off DIN, each answered OK. -/
def addedChunks (chunks : List (List Byte)) (later : List Word) (more : List Byte) (s : State) : State :=
  { s with
    cs := s.cs.add chunks.flatten, cmd := later, din := more
    rsp := s.rsp ++ List.replicate chunks.length 0#64 }

theorem addedChunks_nil (hcmd : s.cmd = later) (hdin : s.din = more) : addedChunks [] later more s = s := by
  simp [addedChunks, ← hcmd, ← hdin]

theorem addedChunks_cons (chunk : List Byte) (rest : List Word) (left : List Byte) :
    addedChunks chunks later more (addedChunks [chunk] rest left s) = addedChunks (chunk :: chunks) later more s := by
  simp [addedChunks, Checksummer.add_append, List.replicate_succ]

/-- One CS.ADD for a chunk that stands at the front of DIN (R102). -/
theorem step_csAdd {chunk : List Byte} (hfault : s.fault = false) (hphase : s.phase = .opened)
    (hwf : chunk.length ≤ Config.maxLen) (hcmd : s.cmd = encode (.csAdd chunk.length) :: rest)
    (hdin : s.din = chunk ++ more) : step s = .next (addedChunks [chunk] rest more s) := by
  rw [step_of_encode hcmd hfault hwf, exec_csAdd_of_enough hfault hphase (by simp [hdin]), respond, hdin, hcmd,
    List.take_left, List.drop_left, addedChunks, List.flatten_singleton]
  rfl

/-- One CS.ADD per chunk adds the whole stream (R106). -/
theorem run_csAdds (hfault : s.fault = false) (hphase : s.phase = .opened)
    (hwf : ∀ c ∈ chunks, c.length ≤ Config.maxLen)
    (hcmd : s.cmd = (chunks.map fun c => encode (.csAdd c.length)) ++ later)
    (hdin : s.din = chunks.flatten ++ more) (k : Nat) :
    Sys2Proof.core.run (chunks.length + k) s = Sys2Proof.core.run k (addedChunks chunks later more s) := by
  induction chunks generalizing s with
  | nil =>
    have hnone : addedChunks [] later more s = s := addedChunks_nil hcmd hdin
    rw [hnone, List.length_nil, Nat.zero_add]
  | cons chunk chunks ih =>
    obtain ⟨hchunk, hchunks⟩ := List.forall_mem_cons.mp hwf
    rw [List.flatten_cons, List.append_assoc] at hdin
    have hrest := ih (s := addedChunks [chunk] _ _ s) hfault hphase hchunks rfl rfl
    rw [addedChunks_cons] at hrest
    rw [List.length_cons, Nat.add_right_comm]
    exact (run_succ _ (step_csAdd hfault hphase hchunk hcmd hdin)).trans hrest

theorem rspWord_ok_zero : rspWord .ok 0#32 = 0#64 := rfl

/-- The response of CS.FIN is its checksum, widened to a word (R76, R103). -/
theorem rspWord_ok_setWidth (c : BitVec 16) : rspWord .ok (c.setWidth 32) = c.setWidth 64 := by
  apply BitVec.eq_of_getLsbD_eq
  intro k hk
  change (wordOf 0 0 (c.setWidth 32)).getLsbD k = _
  rw [getLsbD_wordOf, BitVec.getLsbD_setWidth, BitVec.getLsbD_setWidth]
  by_cases h : k < 32
  · simp [h, hk]
  · simp [h, BitVec.getLsbD_of_ge c k (by omega)]

theorem step_csInit (hfault : s.fault = false) (hcmd : s.cmd = encode .csInit :: rest) :
    step s = .next (respond .ok 0 { s with cs := .fresh, phase := .opened }) :=
  (step_of_encode hcmd hfault (by decide)).trans (execCsInit_next.mpr (.inr ⟨hfault, rfl⟩))

theorem step_csFin (hfault : s.fault = false) (hphase : s.phase = .opened) (hcmd : s.cmd = encode .csFin :: rest) :
    step s = .next (respond .ok (s.cs.finalize.setWidth 32) { s with phase := .finalized }) :=
  (step_of_encode hcmd hfault (by decide)).trans (exec_csFin_of_opened hfault hphase)

/-- Settles O30: CS.INIT opens the unit, `run_csAdds` adds the stream, and CS.FIN answers its closed form. -/
theorem chunkedRunAnswersClosedForm : Obligations.ChunkedRunAnswersClosedForm := by
  intro s chunks later more hfault hwf hcmd hdin
  have hadds := run_csAdds (s := respond .ok 0 { s with cs := .fresh, phase := .opened })
    (later := encode .csFin :: later) hfault rfl hwf (by simp [hcmd]) hdin 1
  have hfin := step_csFin (rest := later) (s := addedChunks chunks (encode .csFin :: later) more
    (respond .ok 0 { s with cs := .fresh, phase := .opened })) hfault rfl rfl
  refine ⟨_, (run_succ _ (step_csInit hfault hcmd)).trans (hadds.trans ((run_succ 0 hfin).trans (run_zero _))), ?_⟩
  change @Eq State _ _
  simp [addedChunks, respond, finalize_fresh_add, rspWord_ok_setWidth, rspWord_ok_zero, List.replicate_succ]

/-- Settles O31: both runs are runs of `chunkedRunAnswersClosedForm`, and the streams are the same. -/
theorem chunkingDoesNotMatter : Obligations.ChunkingDoesNotMatter := by
  intro s chunks hfault hwf hwhole
  obtain ⟨t₁, hrun₁, ht₁⟩ := chunkedRunAnswersClosedForm
    { s with cmd := [encode .csInit, encode (.csAdd chunks.flatten.length), encode .csFin], din := chunks.flatten }
    [chunks.flatten] [] [] hfault (by simpa using hwhole) rfl (by simp)
  obtain ⟨t₂, hrun₂, ht₂⟩ := chunkedRunAnswersClosedForm
    { s with
      cmd := encode .csInit :: (chunks.map fun c => encode (.csAdd c.length)) ++ [encode .csFin]
      din := chunks.flatten }
    chunks [] [] hfault hwf rfl (by simp)
  refine ⟨t₁, t₂, hrun₁, hrun₂, ?_, ?_, ?_, ?_⟩
  · simp [ht₁, ht₂]
  · simp [ht₁]
  · simp [ht₂]
  · simp [ht₁, ht₂]

/-- What SEG.ENC emits and answers is a function of the registers and the payload (R158). -/
theorem exists_segEnc_emission (r : Registers) (p : List Byte) (hfault : r.fault = false)
    (hwf : p.length ≤ Config.maxLen) :
    ∃ (bytes : List Byte) (answer : Word), ∀ (s : State) (rest : List Word) (more : List Byte),
      s.toRegisters = r → s.cmd = encode (.segEnc p.length) :: rest → s.din = p ++ more →
      step s = .next { s with cmd := rest, din := more, dout := s.dout ++ bytes, rsp := s.rsp ++ [answer] } := by
  by_cases hvalid : ∃ src dst, resolve4 Config.v4MappedAccept r.srcAddr = some src ∧
      resolve4 Config.v4MappedAccept r.dstAddr = some dst
  · obtain ⟨src, dst, hsrc, hdst⟩ := hvalid
    refine ⟨encodeSegment r.seg src dst p.length p, rspWord .ok (BitVec.ofNat 32 (20 + p.length)), ?_⟩
    rintro s rest more rfl hcmd hdin
    rw [step_of_encode hcmd hfault hwf, exec_segEnc_of_valid hfault (by simp [hdin]) hsrc hdst, respond, emitDout,
      hdin, hcmd, List.take_left, List.drop_left]
    rfl
  · have hinvalid : resolve4 Config.v4MappedAccept r.srcAddr = none ∨
        resolve4 Config.v4MappedAccept r.dstAddr = none := by
      simpa [Option.eq_none_iff_forall_ne_some, or_iff_not_imp_left] using hvalid
    refine ⟨[], rspWord .invalidAddress 0, ?_⟩
    rintro s rest more rfl hcmd hdin
    rw [step_of_encode hcmd hfault hwf, exec_segEnc_of_invalid hfault (by simp [hdin]) hinvalid, respond, hdin, hcmd,
      List.drop_left, List.append_nil]
    rfl

/-- Settles O52: the first SEG.ENC leaves the registers, so the second finds the same ones and the same payload. -/
theorem repeatedEncodeIsIdentical : Obligations.RepeatedEncodeIsIdentical := by
  intro s p more later hfault hwf hcmd hdin
  obtain ⟨bytes, answer, hstep⟩ := exists_segEnc_emission s.toRegisters p hfault hwf
  have hfirst := hstep s _ (p ++ more) rfl hcmd (by rw [hdin, List.append_assoc])
  have hsecond := hstep
    { s with
      cmd := encode (.segEnc p.length) :: later, din := p ++ more
      dout := s.dout ++ bytes, rsp := s.rsp ++ [answer] }
    later more rfl rfl rfl
  refine ⟨bytes, answer, (run_succ 1 hfirst).trans ((run_succ 0 hsecond).trans ?_)⟩
  simp [run_zero]

end Sys2Proof.Machine
end

section
/-! SUPPORT. 60_exceptions.md R193: an event of one block in the list of all, and the obligation about several blocks. -/

namespace Sys2Proof.Machine

variable {b : Bank} {j k : Nat} {e f : Event} {x y : Session}

theorem eventAt_ne (h : j ≠ k) : (b.eventAt k e)[j]? = b[j]? := List.getElem?_modify_ne _ _ h.symm

theorem eventAt_self (hx : b[k]? = some x) (h : x.next e = .next y) : (b.eventAt k e)[k]? = some y := by
  rw [Bank.eventAt, List.getElem?_modify_eq, hx, Option.map_eq_map, Option.map_some, h]

/-- Changes at two places of a list commute. -/
theorem modify_comm {α : Type} (l : List α) (f g : α → α) (h : j ≠ k) :
    (l.modify j f).modify k g = (l.modify k g).modify j f := by
  apply List.ext_getElem?
  intro m
  by_cases hm : k = m
  · subst hm
    simp [h]
  · simp [List.getElem?_modify, hm]

/-- Settles O60: an event is a change at one place of the list. -/
theorem instancesAreIndependent : Obligations.InstancesAreIndependent := by
  refine ⟨fun b j k e f h => ⟨eventAt_ne h, modify_comm b _ _ h⟩, fun b k e x y hx h => eventAt_self hx h,
    fun n k h => ⟨.start, List.getElem?_replicate_of_lt h, rfl⟩, fun b k h => ?_⟩
  exact ⟨.start, eventAt_self (List.getElem?_eq_getElem h) rfl, rfl⟩

end Sys2Proof.Machine
end

section
/-! SUPPORT. 30_encoding.md R78 and R79: every command of an assembled line is well formed, a row's mnemonic assembles through
`assembleCommand`, and the obligation about assembled programs. -/

namespace Sys2Proof.Machine

variable {i : Instr} {row : OpcodeRow} {ts : List (List Char)} {line : List Char} {items : List Item} {e : AsmError}

/-- Every command of a piece of a program is well formed (R78). -/
def WellFormedItems (items : List Item) : Prop := ∀ i, Item.command i ∈ items → i.WellFormed

theorem wellFormed_of_len_zero (h : i.len = 0) : i.WellFormed := by simp [Instr.WellFormed, h]

/-- An assembled command has no byte count, or one that was checked (R78). -/
theorem wellFormed_of_assembleCommand (h : assembleCommand row ts = .ok i) : i.WellFormed := by
  unfold assembleCommand at h
  split at h
  next =>
    split at h
    next i' hz =>
      cases h
      obtain ⟨-, hlen, -⟩ := fields_of_formZ hz
      exact wellFormed_of_len_zero hlen
    next => cases h
  next =>
    split at h
    next => cases h
    next n _ =>
      split_ifs at h with hle
      split at h
      next i' hl =>
        cases h
        obtain ⟨-, hlen, -⟩ := fields_of_formL hl
        rwa [Instr.WellFormed, hlen]
      next => cases h
  next =>
    split at h
    next => cases h
    next v _ =>
      split_ifs at h with hle
      split at h
      next i' hi =>
        cases h
        obtain ⟨-, hlen, -⟩ := fields_of_formI hi
        exact wellFormed_of_len_zero hlen
      next => cases h
  next => cases h

/-- A pseudo-instruction that carries bytes expands to well-formed commands, once their number is checked (R78, R79). -/
theorem wellFormedItems_of_assembleBytes {mk : List Byte → Pseudo}
    (hmk : ∀ bytes, bytes.length ≤ Config.maxLen → WellFormedItems (mk bytes).expand)
    (h : assembleBytes mk ts = .ok items) : WellFormedItems items := by
  unfold assembleBytes at h
  split at h
  next => cases h
  next bytes _ =>
    split_ifs at h with hle
    cases h
    exact hmk bytes hle

theorem wellFormedItems_of_assembleAddress {mk : Ipv4 → Pseudo} (hmk : ∀ addr, WellFormedItems (mk addr).expand)
    (h : assembleAddress mk ts = .ok items) : WellFormedItems items := by
  unfold assembleAddress at h
  split at h
  next =>
    split at h
    next addr _ =>
      cases h
      exact hmk addr
    next => cases h
  next => cases h

theorem wellFormedItems_segFlagset (flags : List TcpFlag) : WellFormedItems (Pseudo.segFlagset flags).expand := by
  rintro i hi
  obtain rfl : i = .segFlags _ := by simpa [Pseudo.expand] using hi
  exact wellFormed_of_len_zero rfl

theorem wellFormedItems_of_assembleFlagset (h : assembleFlagset ts = .ok items) : WellFormedItems items := by
  unfold assembleFlagset at h
  split at h
  next =>
    cases h
    exact wellFormedItems_segFlagset []
  next =>
    split at h
    next flags _ =>
      cases h
      exact wellFormedItems_segFlagset flags
    next => cases h
  next => cases h

theorem wellFormedItems_of_assembleLine (h : assembleLine line = .ok items) : WellFormedItems items := by
  unfold assembleLine at h
  split at h
  next =>
    cases h
    simp [WellFormedItems]
  next m ts _ =>
    split_ifs at h
    · split at h
      next =>
        cases h
        simp [WellFormedItems]
      next => cases h
    · exact wellFormedItems_of_assembleBytes (by simp [WellFormedItems, Pseudo.expand, Instr.len]) h
    · exact wellFormedItems_of_assembleBytes (by simp [WellFormedItems, Pseudo.expand, Instr.len]) h
    · exact wellFormedItems_of_assembleAddress (by simp [WellFormedItems, Pseudo.expand, Instr.len, Config.maxLen]) h
    · exact wellFormedItems_of_assembleAddress (by simp [WellFormedItems, Pseudo.expand, Instr.len, Config.maxLen]) h
    · exact wellFormedItems_of_assembleFlagset h
    · exact wellFormedItems_of_assembleBytes (by simp [WellFormedItems, Pseudo.expand, Instr.len]) h
    · split at h
      next => cases h
      next =>
        split at h
        next i hi =>
          cases h
          simpa [WellFormedItems] using wellFormed_of_assembleCommand hi
        next => cases h

theorem wellFormedItems_of_assembleLines {lines : List (List Char)} (h : assembleLines lines = .ok items) :
    WellFormedItems items := by
  induction lines generalizing items with
  | nil =>
    cases h
    simp [WellFormedItems]
  | cons line lines ih =>
    unfold assembleLines at h
    split at h
    next => cases h
    next first hfirst =>
      split at h
      next => cases h
      next rest hrest =>
        cases h
        intro i hi
        rcases List.mem_append.mp hi with hi | hi
        · exact wellFormedItems_of_assembleLine hfirst i hi
        · exact ih hrest i hi

/-- One line in error is an error of the program (R78). -/
theorem exists_error_of_mem {lines : List (List Char)} (hline : line ∈ lines) (h : assembleLine line = .error e) :
    ∃ e', assembleLines lines = .error e' := by
  induction lines with
  | nil => cases hline
  | cons l lines ih =>
    rw [assembleLines]
    cases hl : assembleLine l with
    | error e' => exact ⟨e', rfl⟩
    | ok items =>
      obtain ⟨e', he'⟩ := ih ((List.mem_cons.mp hline).resolve_left fun heq => by simp [← heq, h] at hl)
      exact ⟨e', by rw [he']⟩

/-- A row's mnemonic is no pseudo-instruction's name, and finds its row. -/
theorem mnemonic_of_row : ∀ row ∈ opcodeTable,
    row.mnemonic.toList ∉ [".din".toList, "CS.ADDB".toList, "CHECKSUM".toList, "ADDR.SRC4".toList, "ADDR.DST4".toList,
      "SEG.FLAGSET".toList, "SEG.ENCB".toList] ∧
    opcodeTable.find? (·.mnemonic.toList = row.mnemonic.toList) = some row := by
  decide

/-- A line with a row's mnemonic has the errors of `assembleCommand` (R78). -/
theorem assembleLine_error_of_row (hrow : row ∈ opcodeTable) (htokens : tokens line = row.mnemonic.toList :: ts)
    (h : assembleCommand row ts = .error e) : assembleLine line = .error e := by
  obtain ⟨hname, hfind⟩ := mnemonic_of_row row hrow
  simp only [List.mem_cons, List.not_mem_nil, not_or] at hname
  obtain ⟨hdin, haddb, hchecksum, hsrc, hdst, hflagset, hencb, -⟩ := hname
  simp only [assembleLine, htokens, hdin, haddb, hchecksum, hsrc, hdst, hflagset, hencb, hfind, h, if_false]

/-- Settles O58: the checks of `assembleCommand` and `assembleBytes` bound every byte count, and each line's error is passed on. -/
theorem assembledCommandsAreWellFormed : Obligations.AssembledCommandsAreWellFormed := by
  refine ⟨fun text program i hprogram hi => ?_, fun line operand row v hrow htokens hread => ⟨fun hform hv => ?_,
    fun hform hv => ?_⟩, fun text line e hline h => exists_error_of_mem hline h⟩
  · have hwf := wellFormedItems_of_assembleLines hprogram i hi
    exact ⟨hwf, decode_encode hwf⟩
  · refine assembleLine_error_of_row hrow htokens ?_
    simp [assembleCommand, hform, hread, Config.maxLen, Nat.not_le.mpr hv]
  · refine assembleLine_error_of_row hrow htokens ?_
    simp [assembleCommand, hform, hread, Nat.not_le.mpr hv]

end Sys2Proof.Machine
end
